-- ==== Sys2Proof/Word.lean ====
section
/-! DEFINITION. The word type of the core and the widths of 00_scope.md rule R6 that never vary. -/

namespace Sys2Proof

/-- A 64-bit value: a word slot, an operand, a response, a counter or the cursor (R6: WW = CW = CURW = 64). -/
abbrev Word := BitVec 64

/-- A command word (R71): bits 15..8 are RSV, bits 7..0 are OP. -/
abbrev CmdWord := BitVec 16

/-- DW of R6: the usable bits of a word; bit 63, the marker, is not one of them. -/
def dataBits : Nat := 63

/-- CW of R6: the width in bits of one histogram counter. -/
def counterWidth : Nat := 64

/-- The largest 64-bit value: 2^CW - 1 of R140 and 2^64 - 1 of R170. -/
def maxWord : Word := BitVec.allOnes 64

end Sys2Proof
end

