-- ==== Sys2Proof/Syntax.lean ====
section
/-! DEFINITION. The fourteen commands (30_encoding.md rule R72), the transaction that carries one (R70), what the
host can do to the core, and the assembler's written line (R78). -/

namespace Sys2Proof

/-- One constructor per row of the opcode map (R72). A command that reads its operand carries it whole (R73); one
that does not read it carries nothing. -/
inductive Instr where
  /-- NOP (R180): do nothing. -/
  | nop
  /-- ADV (R100): advance the word store. -/
  | adv
  /-- BIN (R120): the window whose top bit is absolute bit `n`. -/
  | bin (n : Word)
  /-- HINC (R140): increment counter `k`. -/
  | hinc (k : Word)
  /-- STEP (R170): one iteration at the cursor. -/
  | step
  /-- LDBEG (R150): begin a checkpoint load with cursor `c`. -/
  | ldbeg (c : Word)
  /-- LDWORD (R151): append the word `v` to the store being loaded. -/
  | ldword (v : Word)
  /-- LDEND (R152): finish a checkpoint load. -/
  | ldend
  /-- RDCUR (R153): read the cursor. -/
  | rdcur
  /-- RDNW (R154): read the word count. -/
  | rdnw
  /-- RDWORD (R155): read word `i`. -/
  | rdword (i : Word)
  /-- RDHIST (R144): read counter `k`. -/
  | rdhist (k : Word)
  /-- RDSTAT (R181): read STATUS. -/
  | rdstat
  /-- RDCFG (R182): read configuration value `j`. -/
  | rdcfg (j : Word)
deriving DecidableEq, Repr

/-- What the host puts on the command port for one transaction (R70): the command word CMD and the operand OPA. -/
structure Command where
  cmd : CmdWord
  opa : Word
deriving DecidableEq, Repr

/-- One thing the host does to the core. -/
inductive HostInput where
  /-- The host issues a command (R70). -/
  | command (c : Command)
  /-- `rst` between two commands (R230; 93_implementation_defined.md U4). -/
  | reset
  /-- `rst` while the command `c` is in progress (R231). -/
  | resetDuring (c : Command)
deriving DecidableEq, Repr

/-- What the core answers to one command (R70, R74): RSP and RSP_ERR. -/
structure Response where
  data : Word
  err : Bool
deriving DecidableEq, Repr

/-- One written line of assembler (R78): a mnemonic and, when it is there, the literal after it. -/
structure AsmLine where
  mnemonic : String
  operand : Option Nat
deriving DecidableEq, Repr

/-- The mnemonics of R78, lower case, each with whether its command reads an operand (R73). -/
def mnemonicTable : List (String × Bool) :=
  [("nop", false), ("adv", false), ("bin", true), ("hinc", true), ("step", false), ("ldbeg", true),
   ("ldword", true)] ++
  [("ldend", false), ("rdcur", false), ("rdnw", false), ("rdword", true), ("rdhist", true),
   ("rdstat", false), ("rdcfg", true)]

end Sys2Proof
end

