-- ==== Sys2Proof/Decode.lean ====
section
/-! DEFINITION. The decoder and the encoder of 30_encoding.md (rules R71 to R76), both from the table of R72. The
decoder is total on every command word and operand, and it rejects by name. -/

namespace Sys2Proof

/-- Why a command word selects no command (R75); the core raises ILLEGAL_CMD for both. -/
inductive IllegalWord where
  /-- CMD[15:8] is not 0. -/
  | reservedByte
  /-- OP is not in the table of R72. -/
  | unassignedOp
deriving DecidableEq, Repr

/-- What the decoder answers. -/
inductive Decoded where
  | command (i : Instr)
  | illegal (why : IllegalWord)
deriving DecidableEq, Repr

/-- RSV, bits 15..8 of the command word (R71). -/
def rsvField (cmd : CmdWord) : BitVec 8 := cmd.extractLsb' 8 8

/-- OP, bits 7..0 of the command word (R71). -/
def opField (cmd : CmdWord) : BitVec 8 := cmd.extractLsb' 0 8

/-- The OP column of R72, read from OP to command; the operand goes in whole where it is read (R73). -/
def decodeOp (op : BitVec 8) (opa : Word) : Option Instr :=
  match op.toNat with
  | 0x00 => some .nop
  | 0x01 => some .adv
  | 0x02 => some (.bin opa)
  | 0x03 => some (.hinc opa)
  | 0x04 => some .step
  | 0x10 => some (.ldbeg opa)
  | 0x11 => some (.ldword opa)
  | 0x12 => some .ldend
  | 0x20 => some .rdcur
  | 0x21 => some .rdnw
  | 0x22 => some (.rdword opa)
  | 0x23 => some (.rdhist opa)
  | 0x30 => some .rdstat
  | 0x31 => some (.rdcfg opa)
  | _ => none

/-- R72: a command word selects a command exactly when CMD[15:8] = 0 and CMD[7:0] is in the table. The mode plays
no part (R76). -/
def decode (c : Command) : Decoded :=
  if rsvField c.cmd = 0#8 then
    match decodeOp (opField c.cmd) c.opa with
    | some i => .command i
    | none => .illegal .unassignedOp
  else .illegal .reservedByte

/-- The OP column of R72, read from command to OP. -/
def opcodeOf : Instr → BitVec 8
  | .nop => 0x00#8
  | .adv => 0x01#8
  | .bin _ => 0x02#8
  | .hinc _ => 0x03#8
  | .step => 0x04#8
  | .ldbeg _ => 0x10#8
  | .ldword _ => 0x11#8
  | .ldend => 0x12#8
  | .rdcur => 0x20#8
  | .rdnw => 0x21#8
  | .rdword _ => 0x22#8
  | .rdhist _ => 0x23#8
  | .rdstat => 0x30#8
  | .rdcfg _ => 0x31#8

/-- The operand of the commands that read one (R73). -/
def operandOf : Instr → Option Word
  | .nop => none
  | .adv => none
  | .bin n => some n
  | .hinc k => some k
  | .step => none
  | .ldbeg c => some c
  | .ldword v => some v
  | .ldend => none
  | .rdcur => none
  | .rdnw => none
  | .rdword i => some i
  | .rdhist k => some k
  | .rdstat => none
  | .rdcfg j => some j

/-- The transaction for a command: RSV is 0 (R71), and a command with no operand is issued with OPA = 0 (R78). -/
def encode (i : Instr) : Command where
  cmd := (opcodeOf i).setWidth 16
  opa := (operandOf i).getD 0#64

/-- The transaction whose bits are `w`, `nbits` of them: CMD is bits 15..0, and OPA, which the opcode table gives no
bits, follows from bit 16 on; every bit above `nbits` is 0 (notes/assumptions/3.md). -/
def commandOfBits (nbits w : Nat) : Command where
  cmd := BitVec.ofNat 16 (w % 2 ^ nbits)
  opa := BitVec.ofNat 64 ((w % 2 ^ nbits) >>> 16)

/-- The command the decoder reads from a row's bits. -/
def decodeTableWord (nbits w : Nat) : Option Instr :=
  match decode (commandOfBits nbits w) with
  | .command i => some i
  | .illegal _ => none

end Sys2Proof
end

