-- ==== Sys2Proof/Config.lean ====
section
/-! DEFINITION. The build parameters of the core (00_scope.md rules R6 to R8). No command writes them (R7).
The spec leaves no result undefined, so the model has no free value and no opaque constant. -/

namespace Sys2Proof

/-- What the builder of a core chooses (R6). The spec's model takes both as arguments (R7, R8): here they are a
field of the machine's state that no step changes, so every claim is made for every build. -/
structure Config where
  /-- `D`: the width of the extraction window; a well-formed build has 1 <= D <= 63. -/
  digits : Nat
  /-- `MAXW`: the number of word slots; a well-formed build has 1 <= MAXW <= 2^64 - 1. -/
  maxw : Nat
deriving DecidableEq, Repr

/-- BINS of R6: the number of histogram counters, 2^D. -/
def Config.bins (c : Config) : Nat := 2 ^ c.digits

/-- The build that `State.reset` shows: D is the spec's default 10 (R6); MAXW is OPEN in the spec (D5), and
2^64 - 1, the largest legal capacity, is a DESIGN CHOICE (notes/assumptions/1.md). -/
def Config.default : Config where
  digits := 10
  maxw := 2 ^ 64 - 1

end Sys2Proof
end

