-- ==== Sys2Proof/Machine/State.lean ====
section
/-! DEFINITION. The state of the core (10_state.md), its value after reset (R40), and the reasons a step can stop. -/

namespace Sys2Proof.Machine

/-- The operating mode (R31). -/
inductive Mode where
  | idle
  | loading
deriving DecidableEq, Repr

/-- The reasons a step stops with a fault of the machine: there are none. A fault of the SPEC (60_exceptions.md rule
R201) stops nothing: the core records it and goes on (R203, R207), so it is a next state here. The core has no stuck
step (R238). -/
inductive Fault where
deriving DecidableEq, Repr

/-- The reasons a step has no meaning. -/
inductive Refusal where
  /-- Raised by an arm of `exec` for a command with no meaning yet; no arm raises it now. Safe. -/
  | notModelled (mnemonic : String)
  /-- Raised by `step` when the build is outside the ranges of R6: such a core is not built and a model refuses
  it (D37, U8). No state with a legal build meets it. Safe. -/
  | badBuild
  /-- Raised by ADV and STEP when a word of the store has bit 63 set: the spec gives the advance no result for such
  a word and says to refuse it (U12, N15). No state that keeps R21 meets it, and every command keeps R21. Safe. -/
  | markerSet
deriving DecidableEq, Repr

/-- The core's state, the build it is made with, and the two sides of its command port. -/
structure State where
  /-- `W`: the valid words, least significant first (R20). The slots at and above NW hold no value and are
  absent (R23), so `NW` (R22) is this list's length, stored once: see `State.nw`. -/
  words : List Word
  /-- `CUR`: the iteration cursor (R27). -/
  cur : Word
  /-- `H`: the counters that are not 0, as (bin index, count) with the indices strictly rising (R29). An unlisted
  counter reads 0, its reset value (R40). -/
  hist : List (Nat × Word)
  /-- `MODE` (R31), seen as STATUS bit 16 (R34). -/
  mode : Mode
  /-- STATUS[7:0]: bit k is set by a fault of code k + 1 (R32). -/
  faultBits : BitVec 8
  /-- STATUS[11:8]: FIRST_CAUSE, the code of the first fault since reset, 0 for none (R32, R33). -/
  firstCause : BitVec 4
  /-- The read-only configuration (R35): D and MAXW; CW is the constant 64. -/
  cfg : Config
  /-- What the host will do to the core, in order, oldest first: the model's own field (notes/assumptions/2.md). -/
  pending : List HostInput
  /-- RSP and RSP_ERR of the last command (R70); none when no response has been given since reset. The model's own
  field for the response side of the port (notes/assumptions/4.md). -/
  rsp : Option Response
deriving DecidableEq, Repr

/-- The state R40 gives a build after reset: the seed [3], cursor 0, every counter 0, IDLE, STATUS 0. -/
def State.resetWith (cfg : Config) : State where
  words := [3#64]
  cur := 0#64
  hist := []
  mode := .idle
  faultBits := 0#8
  firstCause := 0#4
  cfg := cfg
  pending := []
  rsp := none

/-- The machine right after reset (R40, R230), in the default build (notes/assumptions/1.md). -/
def State.reset : State := State.resetWith Config.default

end Sys2Proof.Machine
end

