-- ==== Sys2Proof/Machine/Flags.lean ====
section
/-! DEFINITION. Every flag of the core: the two transient flags of the advance (10_state.md rule R38), the fault
codes (60_exceptions.md rule R201), the STATUS word (R32 to R34) and the `err` output (R208). -/

namespace Sys2Proof.Machine

/-- The eight faults of R201. -/
inductive FaultCode where
  | illegalCmd
  | seqErr
  | binRange
  | indexRange
  | wordRange
  | capacity
  | counterOvf
  | cursorOvf
deriving DecidableEq, Repr

/-- The code column of R201. -/
def FaultCode.code : FaultCode → Nat
  | .illegalCmd => 1
  | .seqErr => 2
  | .binRange => 3
  | .indexRange => 4
  | .wordRange => 5
  | .capacity => 6
  | .counterOvf => 7
  | .cursorOvf => 8

/-- STATUS[c - 1] <- 1 (R203): a bit already set stays set (R33). -/
def setFaultBit (c : FaultCode) (bits : BitVec 8) : BitVec 8 := bits ||| (1#8 <<< (c.code - 1))

/-- FIRST_CAUSE takes the code when it is 0 and keeps its value otherwise (R33, R203). -/
def noteFirstCause (c : FaultCode) (first : BitVec 4) : BitVec 4 :=
  if first = 0#4 then BitVec.ofNat 4 c.code else first

/-- STATUS[16] (R34): 1 exactly when MODE = LOADING. -/
def loadingBit : Mode → Bool
  | .idle => false
  | .loading => true

/-- `STATUS` as RDSTAT reads it (R32): bits 7..0 the fault bits, 11..8 FIRST_CAUSE, 16 LOADING, the rest 0. -/
def State.status (s : State) : Word :=
  s.faultBits.setWidth 64 ||| (s.firstCause.setWidth 64 <<< 8) |||
    ((BitVec.ofBool (loadingBit s.mode)).setWidth 64 <<< 16)

/-- The `err` output (R208): the OR of STATUS[7:0]. -/
def State.err (s : State) : Bool := decide (s.faultBits ≠ 0#8)

/-- A 1-bit flag of the advance as a 64-bit addend (R101). -/
def flagWord (flag : Bool) : Word := (BitVec.ofBool flag).setWidth 64

/-- Steps 2b and 2d of R101: the flag is bit 63, and a set bit 63 is cleared by `^ 2^63`. -/
def splitMarker (v : Word) : Word × Bool :=
  if v.getLsbD 63 then (v ^^^ (1#64 <<< 63), true) else (v, false)

end Sys2Proof.Machine
end

