-- ==== Sys2Proof/WellFormed.lean ====
section
/-! DEFINITION. What may be built and what may be written. Every term of `Instr` is well formed by its types: an
operand is any 64-bit value (30_encoding.md rule R73), and a value a command does not accept faults when the command
runs, it does not make the command ill formed. What can be ill formed is a build and a line of assembler. -/

namespace Sys2Proof

/-- R6, D4: 1 <= D <= 63. -/
def Config.digitsOk (c : Config) : Bool := decide (1 ≤ c.digits) && decide (c.digits ≤ 63)

/-- R6, D5: 1 <= MAXW <= 2^64 - 1. -/
def Config.maxwOk (c : Config) : Bool := decide (1 ≤ c.maxw) && decide (c.maxw ≤ 2 ^ 64 - 1)

/-- A build inside the ranges of R6; any other is not built, and a model refuses it (D37, U8). -/
def Config.wf (c : Config) : Bool := c.digitsOk && c.maxwOk

/-- R78: the literal is there exactly when the command reads an operand. -/
def AsmLine.operandFits (reads : Bool) : Option Nat → Bool
  | none => !reads
  | some n => reads && decide (n < 2 ^ 64)

/-- R78: the mnemonic is one of the fourteen, an operand stands exactly where the command reads one, and a literal
has at most 64 bits. -/
def AsmLine.wf (l : AsmLine) : Bool :=
  match mnemonicTable.lookup l.mnemonic with
  | none => false
  | some reads => AsmLine.operandFits reads l.operand

end Sys2Proof
end

