-- ==== Sys2Proof/Machine/Operands.lean ====
section
/-! DEFINITION. The operand forms (30_encoding.md rule R73): the four index spaces of 20_memory.md rule R51, each
read in one place. An index is an element index, never a byte address (R55). -/

namespace Sys2Proof.Machine

/-- A count of words as the 64-bit register shows it (R22, R74). -/
def countWord (n : Nat) : Word := BitVec.ofNat 64 n

/-- `NW`: the number of valid words (R22). -/
def State.nw (s : State) : Word := countWord s.words.length

/-- Word index (R51): W[i] for i < NW, and no value for i >= NW (R23). -/
def wordAt (ws : List Word) (i : Nat) : Option Word := ws[i]?

/-- `Wz(j)` of R123: the word, or 0 at and above NW. -/
def wordOrZero (ws : List Word) (j : Nat) : Word := (wordAt ws j).getD 0#64

/-- Absolute bit position (R14, R53): the word that holds it. -/
def wordNum (n : Word) : Nat := n.toNat / dataBits

/-- Absolute bit position (R14, R53): the bit of that word. -/
def bitNum (n : Word) : Nat := n.toNat % dataBits

/-- `mask` of R121: 2^D - 1. -/
def windowMask (d : Nat) : Word := BitVec.ofNat 64 (2 ^ d - 1)

/-- Bin index (R51): legal when k < 2^D. -/
def binInRange (cfg : Config) (k : Word) : Bool := decide (k.toNat < cfg.bins)

/-- Word value (R73): legal when v < 2^63, that is, when the marker bit is 0. -/
def wordInRange (v : Word) : Bool := !v.getLsbD 63

/-- Configuration index (R35, R182): 0 is D, 1 is MAXW, 2 is CW, and there is no other. -/
def configAt (cfg : Config) (j : Word) : Option Word :=
  match j.toNat with
  | 0 => some (BitVec.ofNat 64 cfg.digits)
  | 1 => some (BitVec.ofNat 64 cfg.maxw)
  | 2 => some (BitVec.ofNat 64 counterWidth)
  | _ => none

/-- The at-rest invariant of R21 on a word sequence: the marker bit of every word is 0. -/
def atRest (ws : List Word) : Bool := ws.all wordInRange

/-- Counter `k` of a canonical histogram; an unlisted counter reads 0. -/
def histGet : List (Nat × Word) → Nat → Word
  | [], _ => 0#64
  | (j, v) :: rest, k => if k < j then 0#64 else if k = j then v else histGet rest k

/-- `H[k]` (R29). -/
def State.counter (s : State) (k : Nat) : Word := histGet s.hist k

end Sys2Proof.Machine
end

