-- ==== Sys2Proof/Machine/Ops.lean ====
section
/-! DEFINITION. The shared operations: one update per piece of state, the counter write that keeps the histogram
canonical, ending a command with a response or with a fault (00_scope.md rule R11), and reset. -/

namespace Sys2Proof.Machine

/-- Every meaning answers this. -/
abbrev Result := Host.Outcome State Fault Refusal

/-- `W[0 .. NW-1] <- ws` and `NW <- length` together. -/
def State.setWords (s : State) (ws : List Word) : State := { s with words := ws }

/-- `CUR <- c`. -/
def State.setCur (s : State) (c : Word) : State := { s with cur := c }

/-- `MODE <- m`. -/
def State.setMode (s : State) (m : Mode) : State := { s with mode := m }

/-- The histogram replaced whole. -/
def State.setHist (s : State) (h : List (Nat × Word)) : State := { s with hist := h }

/-- STATUS[7:0] and STATUS[11:8] replaced. -/
def State.setFlags (s : State) (bits : BitVec 8) (first : BitVec 4) : State :=
  { s with faultBits := bits, firstCause := first }

/-- The response of the command in hand. -/
def State.setRsp (s : State) (r : Response) : State := { s with rsp := some r }

/-- The host's inputs still to come. -/
def State.setPending (s : State) (p : List HostInput) : State := { s with pending := p }

/-- Write one counter and keep the list canonical: indices strictly rising, no entry equal to 0. -/
def histSet : List (Nat × Word) → Nat → Word → List (Nat × Word)
  | [], k, v => if v = 0#64 then [] else [(k, v)]
  | (j, u) :: rest, k, v =>
    if k < j then (if v = 0#64 then (j, u) :: rest else (k, v) :: (j, u) :: rest)
    else if k = j then (if v = 0#64 then rest else (k, v) :: rest)
    else (j, u) :: histSet rest k v

/-- The canonical form from index `lo` on: indices strictly rising, below `bins`, and no count of 0. -/
def histWfFrom (bins : Nat) : Nat → List (Nat × Word) → Bool
  | _, [] => true
  | lo, (k, v) :: rest => decide (lo ≤ k) && decide (k < bins) && decide (v ≠ 0#64) && histWfFrom bins (k + 1) rest

/-- The histogram is in canonical form, with no counter outside the build's 2^D. -/
def histWf (bins : Nat) (h : List (Nat × Word)) : Bool := histWfFrom bins 0 h

/-- `Increment(k)` of R141 on one counter: `H[k] <- H[k] + 1`. The caller has checked k and the count. -/
def State.incCounter (s : State) (k : Nat) : State := s.setHist (histSet s.hist k (s.counter k + 1#64))

/-- `respond(v)` (R11, R74): the command ends with data v and error bit 0. -/
def respond (v : Word) (s : State) : Result := .next (s.setRsp { data := v, err := false })

/-- The fault recording of R203. -/
def recordFault (c : FaultCode) (s : State) : State :=
  (s.setFlags (setFaultBit c s.faultBits) (noteFirstCause c s.firstCause)).setRsp
    { data := BitVec.ofNat 64 c.code, err := true }

/-- `raise Fault(code)` (R11): the command ends with the fault recorded and nothing else changed (R12, R203). There
is no trap entry and no return from one (R200, R210, R211), so this is the whole of taking a fault. -/
def raise (c : FaultCode) (s : State) : Result := .next (recordFault c s)

/-- Reset (R230, R231): every piece of state takes its value of R40, whatever was in progress. The build stays, and
the host goes on with its remaining inputs. -/
def takeReset (s : State) : State := (State.resetWith s.cfg).setPending s.pending

end Sys2Proof.Machine
end

