-- ==== Sys2Proof/Machine/Advance.lean ====
section
/-! DEFINITION. 40_bigfraction_advance.md: the `Advance` function (R101) and ADV (R100). -/

namespace Sys2Proof.Machine

/-- Steps 2a to 2d of R101 for one word: the new word, the shifted bit and the carry bit that leave it. -/
def advanceWord (w : Word) (shifted carry : Bool) : Word × Bool × Bool :=
  let shiftedValue := splitMarker ((w <<< 1) + flagWord shifted)
  let newValue := splitMarker (w + shiftedValue.1 + flagWord carry)
  (newValue.1, shiftedValue.2, newValue.2)

/-- Steps 2 and 3 of R101 from the flags that enter the first of these words. Step 3 appends at most one word, the
sum of the two flags. -/
def advanceFrom : List Word → Bool → Bool → List Word
  | [], shifted, carry => if shifted || carry then [flagWord shifted + flagWord carry] else []
  | w :: ws, shifted, carry =>
    let out := advanceWord w shifted carry
    out.1 :: advanceFrom ws out.2.1 out.2.2

/-- `Advance(W, NW)` of R101, least significant word first; both flags start at 0 (step 1). -/
def advance (ws : List Word) : List Word := advanceFrom ws false false

/-- ADV (R100). Refuses a store outside R21, for which the spec gives the advance no result (U12, N15). -/
def execAdv (s : State) : Result :=
  if s.mode ≠ .idle then raise .seqErr s
  else if atRest s.words = false then .refused .markerSet
  else if s.cfg.maxw < (advance s.words).length then raise .capacity s
  else respond (countWord (advance s.words).length) (s.setWords (advance s.words))

end Sys2Proof.Machine
end

