-- ==== Sys2Proof/Machine/Checkpoint.lean ====
section
/-! DEFINITION. 43_checkpoint_transfer.md: LDBEG, LDWORD, LDEND (R150 to R152), RDCUR, RDNW, RDWORD (R153 to
R155). -/

namespace Sys2Proof.Machine

/-- LDBEG (R150), legal in both modes. -/
def execLdbeg (c : Word) (s : State) : Result :=
  respond 0#64 (((s.setCur c).setWords []).setMode .loading)

/-- LDWORD (R151), its checks in the order of R206. -/
def execLdword (v : Word) (s : State) : Result :=
  if s.mode ≠ .loading then raise .seqErr s
  else if wordInRange v = false then raise .wordRange s
  else if s.words.length = s.cfg.maxw then raise .capacity s
  else respond (countWord (s.words.length + 1)) (s.setWords (s.words ++ [v]))

/-- An empty word sequence is a fresh start: it becomes the seed [3] (R152). -/
def seedIfEmpty : List Word → List Word
  | [] => [3#64]
  | w :: ws => w :: ws

/-- LDEND (R152). -/
def execLdend (s : State) : Result :=
  if s.mode ≠ .loading then raise .seqErr s
  else respond (countWord (seedIfEmpty s.words).length) ((s.setWords (seedIfEmpty s.words)).setMode .idle)

/-- RDCUR (R153). -/
def execRdcur (s : State) : Result := respond s.cur s

/-- RDNW (R154). -/
def execRdnw (s : State) : Result := respond s.nw s

/-- RDWORD (R155). -/
def execRdword (i : Word) (s : State) : Result :=
  match wordAt s.words i.toNat with
  | none => raise .indexRange s
  | some w => respond w s

end Sys2Proof.Machine
end

