-- ==== Sys2Proof/Machine/Control.lean ====
section
/-! DEFINITION. 45_control.md: NOP (R180), RDSTAT (R181), RDCFG (R182). -/

namespace Sys2Proof.Machine

/-- NOP (R180). -/
def execNop (s : State) : Result := respond 0#64 s

/-- RDSTAT (R181): reading clears nothing. -/
def execRdstat (s : State) : Result := respond s.status s

/-- RDCFG (R182). -/
def execRdcfg (j : Word) (s : State) : Result :=
  match configAt s.cfg j with
  | none => raise .indexRange s
  | some v => respond v s

end Sys2Proof.Machine
end

