-- ==== Sys2Proof/Machine/Extract.lean ====
section
/-! DEFINITION. 41_bin_extract.md: the `BinValue` function (R121 to R123) and BIN (R120). -/

namespace Sys2Proof.Machine

/-- The one-word case of R121, `shift` = shiftBits >= 0. -/
def windowInWord (d : Nat) (w : Word) (shift : Nat) : Word :=
  (w &&& (windowMask d <<< shift)) >>> shift

/-- `hi` of R121: the low D - k bits of the upper word, moved up by k. -/
def windowHigh (d : Nat) (w : Word) (k : Nat) : Word := (w <<< k) &&& windowMask d

/-- `lo` of R121: the top k data bits of the lower word. -/
def windowLow (d : Nat) (w : Word) (k : Nat) : Word :=
  (w &&& (windowMask d <<< (63 - k))) >>> (63 - k)

/-- `BinValue(W, NW, n)` of R121. Below word 0 the window is padded with zeros (R122); at and above NW the words
read as 0 (R123). -/
def binValue (d : Nat) (ws : List Word) (n : Word) : Word :=
  let shiftBits : Int := (bitNum n : Int) - ((d : Int) - 1)
  if 0 ≤ shiftBits then windowInWord d (wordOrZero ws (wordNum n)) shiftBits.toNat
  else
    let k := (-shiftBits).toNat
    let lo := if wordNum n = 0 then 0#64 else windowLow d (wordOrZero ws (wordNum n - 1)) k
    windowHigh d (wordOrZero ws (wordNum n)) k ||| lo

/-- BIN (R120). -/
def execBin (n : Word) (s : State) : Result :=
  if s.mode ≠ .idle then raise .seqErr s
  else respond (binValue s.cfg.digits s.words n) s

end Sys2Proof.Machine
end

