-- ==== Sys2Proof/Machine/Driver.lean ====
section
/-! DEFINITION. 44_driver_step.md: STEP (R170, R171). -/

namespace Sys2Proof.Machine

/-- The bin of the iteration at the cursor, from the words before the advance (R171). -/
def iterationBin (s : State) : Word := binValue s.cfg.digits s.words s.cur

/-- The writes of a STEP that passed every check (R170): the counter, the words, the cursor. -/
def State.iterate (s : State) : State :=
  ((s.incCounter (iterationBin s).toNat).setWords (advance s.words)).setCur (s.cur + 1#64)

/-- STEP (R170), its checks in the order of R206. Refuses a store outside R21, as ADV does (U12, N15). -/
def execStep (s : State) : Result :=
  if s.mode ≠ .idle then raise .seqErr s
  else if atRest s.words = false then .refused .markerSet
  else if s.cfg.maxw < (advance s.words).length then raise .capacity s
  else if s.counter (iterationBin s).toNat = maxWord then raise .counterOvf s
  else if s.cur = maxWord then raise .cursorOvf s
  else respond (iterationBin s) s.iterate

end Sys2Proof.Machine
end

