-- ==== Sys2Proof/Machine/Histogram.lean ====
section
/-! DEFINITION. 42_histogram.md: HINC (R140) and RDHIST (R144). -/

namespace Sys2Proof.Machine

/-- HINC (R140), its checks in the order of R206. -/
def execHinc (k : Word) (s : State) : Result :=
  if s.mode ≠ .idle then raise .seqErr s
  else if binInRange s.cfg k = false then raise .binRange s
  else if s.counter k.toNat = maxWord then raise .counterOvf s
  else respond (s.counter k.toNat + 1#64) (s.incCounter k.toNat)

/-- RDHIST (R144). -/
def execRdhist (k : Word) (s : State) : Result :=
  if binInRange s.cfg k = false then raise .indexRange s
  else respond (s.counter k.toNat) s

end Sys2Proof.Machine
end

