-- ==== Sys2Proof/Machine/Dispatch.lean ====
section
/-! DEFINITION. One arm per command of the opcode map (30_encoding.md rule R72). -/

namespace Sys2Proof.Machine

def exec (i : Instr) (s : State) : Host.Outcome State Fault Refusal :=
  match i with
  | .nop => Sys2Proof.Machine.execNop s
  | .adv => Sys2Proof.Machine.execAdv s
  | .bin n => Sys2Proof.Machine.execBin n s
  | .hinc k => Sys2Proof.Machine.execHinc k s
  | .step => Sys2Proof.Machine.execStep s
  | .ldbeg c => Sys2Proof.Machine.execLdbeg c s
  | .ldword v => Sys2Proof.Machine.execLdword v s
  | .ldend => Sys2Proof.Machine.execLdend s
  | .rdcur => Sys2Proof.Machine.execRdcur s
  | .rdnw => Sys2Proof.Machine.execRdnw s
  | .rdword j => Sys2Proof.Machine.execRdword j s
  | .rdhist k => Sys2Proof.Machine.execRdhist k s
  | .rdstat => Sys2Proof.Machine.execRdstat s
  | .rdcfg j => Sys2Proof.Machine.execRdcfg j s

end Sys2Proof.Machine
end

