-- ==== Sys2Proof/Machine/Step.lean ====
section
/-! DEFINITION. One step of the machine: the core takes the host's next input (00_scope.md rule R3, 20_memory.md rule
R61). A command is decoded and run, a reset resets, and with no input the core holds its state (R220, R232). -/

namespace Sys2Proof.Machine

/-- One command transaction (R70): an illegal word raises ILLEGAL_CMD before anything else is tested (R75, R206). -/
def runCommand (c : Command) (s : State) : Host.Outcome State Fault Refusal :=
  match decode c with
  | .command i => exec i s
  | .illegal _ => raise .illegalCmd s

/-- One input of the host. -/
def takeInput (x : HostInput) (s : State) : Host.Outcome State Fault Refusal :=
  match x with
  | .command c => runCommand c s
  | .reset => .next (takeReset s)
  | .resetDuring _ => .next (takeReset s)

/-- One step. A build outside R6 is refused (D37, U8). -/
def step (s : State) : Host.Outcome State Fault Refusal :=
  if s.cfg.wf then
    match s.pending with
    | [] => .next s
    | x :: rest => takeInput x (s.setPending rest)
  else .refused .badBuild

/-- `s` with one command placed where step takes its next one: at the head of the host's inputs
(notes/assumptions/3.md). -/
def State.withFetchWord (s : State) (nbits w : Nat) : State :=
  s.setPending (.command (commandOfBits nbits w) :: s.pending)

end Sys2Proof.Machine
end

