-- ==== Sys2Proof/Machine/Asm.lean ====
section
/-! DEFINITION. The assembler syntax of 30_encoding.md rule R78: from a written line to the command transaction, and
the listing of one. The pseudo-instructions of R79 are in Machine/Pseudo.lean. -/

namespace Sys2Proof.Machine

/-- The command a mnemonic names, given the operand it would carry. -/
def instrNamed (mnemonic : String) (v : Word) : Option Instr :=
  let low : List (String × Instr) :=
    [("nop", Instr.nop), ("adv", Instr.adv), ("bin", Instr.bin v), ("hinc", Instr.hinc v), ("step", Instr.step),
     ("ldbeg", Instr.ldbeg v), ("ldword", Instr.ldword v)]
  let high : List (String × Instr) :=
    [("ldend", Instr.ldend), ("rdcur", Instr.rdcur), ("rdnw", Instr.rdnw), ("rdword", Instr.rdword v),
     ("rdhist", Instr.rdhist v), ("rdstat", Instr.rdstat), ("rdcfg", Instr.rdcfg v)]
  (low ++ high).lookup mnemonic

/-- A well-formed line names one command; any other line names none. -/
def instrOfLine (l : AsmLine) : Option Instr :=
  if l.wf then instrNamed l.mnemonic (BitVec.ofNat 64 (l.operand.getD 0)) else none

/-- The mnemonic of R78. -/
def mnemonicOf : Instr → String
  | .nop => "nop"
  | .adv => "adv"
  | .bin _ => "bin"
  | .hinc _ => "hinc"
  | .step => "step"
  | .ldbeg _ => "ldbeg"
  | .ldword _ => "ldword"
  | .ldend => "ldend"
  | .rdcur => "rdcur"
  | .rdnw => "rdnw"
  | .rdword _ => "rdword"
  | .rdhist _ => "rdhist"
  | .rdstat => "rdstat"
  | .rdcfg _ => "rdcfg"

/-- How a command is written: its mnemonic, then its operand when it reads one. -/
def lineOf (i : Instr) : AsmLine where
  mnemonic := mnemonicOf i
  operand := (operandOf i).map BitVec.toNat

/-- The value of a digit in base ten or sixteen; both cases of a letter are read (notes/assumptions/8.md). -/
def digitValue (base : Nat) (c : Char) : Option Nat :=
  let n := c.toNat
  let v := if 48 ≤ n ∧ n ≤ 57 then n - 48
    else if 97 ≤ n ∧ n ≤ 102 then n - 87
    else if 65 ≤ n ∧ n ≤ 70 then n - 55
    else base
  if v < base then some v else none

/-- Digits read from the left onto an accumulated value. -/
def readDigits (base : Nat) : List Char → Nat → Option Nat
  | [], acc => some acc
  | c :: cs, acc =>
    match digitValue base c with
    | none => none
    | some v => readDigits base cs (acc * base + v)

/-- An unsigned decimal or `0x`-prefixed hexadecimal literal. -/
def readLiteral : List Char → Option Nat
  | [] => none
  | '0' :: 'x' :: c :: cs => readDigits 16 (c :: cs) 0
  | c :: cs => readDigits 10 (c :: cs) 0

/-- Text after `;` is a comment. -/
def stripComment (cs : List Char) : List Char := cs.takeWhile (fun c => c != ';')

/-- The words of a line, `cur` being the one in hand, last character first. -/
def splitWords : List Char → List Char → List (List Char)
  | [], cur => if cur.isEmpty then [] else [cur.reverse]
  | c :: cs, cur =>
    if c == ' ' || c == '\t' then
      (if cur.isEmpty then splitWords cs [] else cur.reverse :: splitWords cs [])
    else splitWords cs (c :: cur)

/-- One line of text: no command for an empty line or a comment, one command for a well-formed line, and none at all
(an error of the assembler) for any other. -/
def assembleText (text : String) : Option (List Command) :=
  match splitWords (stripComment text.toList) [] with
  | [] => some []
  | [m] => (instrOfLine { mnemonic := String.ofList m, operand := none }).map (fun i => [encode i])
  | [m, lit] =>
    match readLiteral lit with
    | none => none
    | some n => (instrOfLine { mnemonic := String.ofList m, operand := some n }).map (fun i => [encode i])
  | _ => none

/-- One hexadecimal digit, capitals as in the listings of 95_test_vectors.md. -/
def hexDigit (n : Nat) : Char := Char.ofNat (if n % 16 < 10 then 48 + n % 16 else 55 + n % 16)

/-- Exactly `k` hexadecimal digits of `n`, most significant first. -/
def hexFixed : Nat → Nat → List Char
  | 0, _ => []
  | k + 1, n => hexFixed k (n / 16) ++ [hexDigit n]

/-- The listing of a command (R78): `CMD=0x00hh OPA=0x…`, the operand without leading zeros. -/
def listing (i : Instr) : String :=
  let opa := (hexFixed 15 ((encode i).opa.toNat / 16)).dropWhile (fun c => c == '0') ++
    [hexDigit (encode i).opa.toNat]
  "CMD=0x" ++ String.ofList (hexFixed 4 (encode i).cmd.toNat) ++ " OPA=0x" ++ String.ofList opa

end Sys2Proof.Machine
end

