-- ==== Sys2Proof/Machine/Pseudo.lean ====
section
/-! DEFINITION. The pseudo-instructions of 30_encoding.md rule R79: sequences the host issues. The core sees only the
commands. -/

namespace Sys2Proof.Machine

/-- The host issues these commands, in this order. -/
def issue (is : List Instr) : List HostInput := is.map (fun i => .command (encode i))

/-- `seed`: a fresh start that leaves the histogram. -/
def Pseudo.seed : List Instr := [.ldbeg 0, .ldend]

/-- `load c, w0, …, wm`: restore a checkpoint. -/
def Pseudo.load (c : Word) (ws : List Word) : List Instr := .ldbeg c :: (ws.map .ldword ++ [.ldend])

/-- `save`, for the count NW that its RDNW answers: cursor, count, then each word in order. -/
def Pseudo.save (nw : Nat) : List Instr :=
  [.rdcur, .rdnw] ++ (List.range nw).map (fun i => .rdword (BitVec.ofNat 64 i))

/-- `snapshot`, for a build with this many counters: each counter in bin order. -/
def Pseudo.snapshot (bins : Nat) : List Instr :=
  (List.range bins).map (fun k => .rdhist (BitVec.ofNat 64 k))

/-- `run k`: k iterations. -/
def Pseudo.run (k : Nat) : List Instr := List.replicate k .step

end Sys2Proof.Machine
end

