-- ==== Sys2Proof/Safety.lean ====
section
/-! DEFINITION. The notions the statements are made of: the value of a word store, the closed form of a window, the
legality matrix, what a legal state is, and a run. -/

namespace Sys2Proof.Machine

/-- `Val(W, NW)` of R13: the sum of W[i] * 2^(63*i), least significant word first. -/
def val : List Word → Nat
  | [] => 0
  | w :: ws => w.toNat + 2 ^ dataBits * val ws

/-- The closed form of R124: bits n down to n - D + 1 of the value, with zero below bit 0. -/
def window (d v n : Nat) : Nat := v * 2 ^ (d - 1) / 2 ^ n % 2 ^ d

/-- The matrix of R214: which commands are legal in which mode. -/
def legalIn : Mode → Instr → Bool
  | _, .nop => true
  | m, .adv => m = .idle
  | m, .bin _ => m = .idle
  | m, .hinc _ => m = .idle
  | m, .step => m = .idle
  | _, .ldbeg _ => true
  | m, .ldword _ => m = .loading
  | m, .ldend => m = .loading
  | _, .rdcur => true
  | _, .rdnw => true
  | _, .rdword _ => true
  | _, .rdhist _ => true
  | _, .rdstat => true
  | _, .rdcfg _ => true

/-- The read commands and BIN: the commands that change no state on success (R58). -/
def readsOnly : Instr → Bool
  | .nop => false
  | .adv => false
  | .bin _ => true
  | .hinc _ => false
  | .step => false
  | .ldbeg _ => false
  | .ldword _ => false
  | .ldend => false
  | .rdcur => true
  | .rdnw => true
  | .rdword _ => true
  | .rdhist _ => true
  | .rdstat => true
  | .rdcfg _ => true

/-- The input is `rst`, between two commands or during one (R230, R231). -/
def isReset : HostInput → Bool
  | .command _ => false
  | .reset => true
  | .resetDuring _ => true

/-- The sum of all 2^D counters (R142). -/
def counterTotal (s : State) : Nat := ∑ k ∈ Finset.range s.cfg.bins, (s.counter k).toNat

/-- `NW` in its range (R22): at most MAXW, and at least 1 in IDLE. -/
def CountInRange (s : State) : Prop :=
  s.words.length ≤ s.cfg.maxw ∧ (s.mode = .idle → 1 ≤ s.words.length)

/-- STATUS holds a legal value (R34): FIRST_CAUSE is 0 to 8, it is 0 exactly when no fault bit is set, and the bit
of the fault it names is set. -/
def StatusLegal (s : State) : Prop :=
  s.firstCause.toNat ≤ 8 ∧ (s.firstCause ≠ 0#4 ↔ s.faultBits ≠ 0#8) ∧
    (s.firstCause ≠ 0#4 → s.faultBits.getLsbD (s.firstCause.toNat - 1) = true)

/-- The last response is one the core gives: an error response carries the code of a fault that STATUS holds (R203,
R207). -/
def ResponseLegal (s : State) : Prop :=
  ∀ r, s.rsp = some r → r.err = true →
    1 ≤ r.data.toNat ∧ r.data.toNat ≤ 8 ∧ s.faultBits.getLsbD (r.data.toNat - 1) = true

/-- A legal state: what the spec says holds between any two commands. -/
structure Legal (s : State) : Prop where
  /-- The build is in the ranges of R6. -/
  build : s.cfg.wf = true
  /-- R21. -/
  rest : atRest s.words = true
  /-- R22. -/
  count : CountInRange s
  /-- The histogram is canonical and has only the build's counters (R29). -/
  hist : histWf s.cfg.bins s.hist = true
  /-- R34. -/
  status : StatusLegal s
  /-- R203. -/
  response : ResponseLegal s

/-- `k` steps, stopping at the first fault or refusal. -/
def runFor : Nat → State → Result
  | 0, s => .next s
  | k + 1, s =>
    match step s with
    | .next s' => runFor k s'
    | .fault r => .fault r
    | .refused r => .refused r

/-- The machine in state `s`, with exactly these commands to come from the host. -/
def State.given (s : State) (is : List Instr) : State := s.setPending (issue is)

/-- `b_j` of R173: the bin of iteration j of a run from the seed. -/
def seedBin (d j : Nat) : Nat := window d (3 ^ (j + 1)) j

/-- The count R173 gives counter `b` after `k` iterations from the seed: how many j < k have b_j = b. -/
def seedCount (d k b : Nat) : Nat := ((List.range k).filter (fun j => seedBin d j = b)).length

/-- A run of `k` iterations from the seed stays inside the core: its value fits in MAXW words, and its cursor, which
bounds every count, in 64 bits. -/
def SeedRunFits (cfg : Config) (k : Nat) : Prop := 3 ^ (k + 1) < 2 ^ (dataBits * cfg.maxw) ∧ k < 2 ^ 64

end Sys2Proof.Machine
end

