-- ==== Sys2Proof/Certificates/Slice0/Obligations.lean ====
section
/-! DEFINITION. The statements about this model. Each docstring says which rule of spec/ it formalises, or that it is
derived and from what. Every statement holds for every build: D and MAXW are never fixed (R7, R8). -/

open Sys2Proof Sys2Proof.Machine

/-! ## Encoding and one transaction -/

/-- Sanity: the fourteen command words of the CMD column of R72, written out bit by bit, decode to their commands,
and an operand that is read goes in whole. -/
def Obligations.OpcodeMapWordsDecode : Prop :=
  ∀ v : Word,
    decode ⟨0b0000000000000000#16, v⟩ = .command .nop ∧ decode ⟨0b0000000000000001#16, v⟩ = .command .adv ∧
    decode ⟨0b0000000000000010#16, v⟩ = .command (.bin v) ∧
    decode ⟨0b0000000000000011#16, v⟩ = .command (.hinc v) ∧
    decode ⟨0b0000000000000100#16, v⟩ = .command .step ∧
    decode ⟨0b0000000000010000#16, v⟩ = .command (.ldbeg v) ∧
    decode ⟨0b0000000000010001#16, v⟩ = .command (.ldword v) ∧
    decode ⟨0b0000000000010010#16, v⟩ = .command .ldend ∧
    decode ⟨0b0000000000100000#16, v⟩ = .command .rdcur ∧
    decode ⟨0b0000000000100001#16, v⟩ = .command .rdnw ∧
    decode ⟨0b0000000000100010#16, v⟩ = .command (.rdword v) ∧
    decode ⟨0b0000000000100011#16, v⟩ = .command (.rdhist v) ∧
    decode ⟨0b0000000000110000#16, v⟩ = .command .rdstat ∧
    decode ⟨0b0000000000110001#16, v⟩ = .command (.rdcfg v)

/-- Decoding an encoded command gives it back, for all fourteen commands and every operand. -/
def Obligations.DecodeOfEncodeIsIdentity : Prop := ∀ i : Instr, decode (encode i) = .command i

/-- The paragraph after R72's table: a word selects a command exactly when CMD[15:8] = 0 and OP is one of the
fourteen, and the command it selects has that command word and, where it reads an operand, that operand. -/
def Obligations.WordIsLegalIffInOpcodeMap : Prop :=
  (∀ c : Command, (∃ i, decode c = .command i) ↔
    (c.cmd.extractLsb' 8 8 = 0 ∧ (c.cmd.extractLsb' 0 8).toNat ∈
      [0x00, 0x01, 0x02, 0x03, 0x04, 0x10, 0x11, 0x12, 0x20, 0x21, 0x22, 0x23, 0x30, 0x31])) ∧
  (∀ (c : Command) (i : Instr), decode c = .command i →
    (encode i).cmd = c.cmd ∧ ∀ v, operandOf i = some v → v = c.opa)

/-- R75: a word with a non-zero reserved byte, or with one of the 242 unassigned opcodes, raises ILLEGAL_CMD, in
every state and mode of a legal build, and nothing else changes. -/
def Obligations.IllegalWordRaisesIllegalCmd : Prop :=
  ∀ (s : State) (c : Command) (rest : List HostInput),
    s.cfg.wf = true → s.pending = .command c :: rest →
    (c.cmd.extractLsb' 8 8 ≠ 0 ∨
      (let op := (c.cmd.extractLsb' 0 8).toNat
       (0x05 ≤ op ∧ op ≤ 0x0F) ∨ (0x13 ≤ op ∧ op ≤ 0x1F) ∨ (0x24 ≤ op ∧ op ≤ 0x2F) ∨ (0x32 ≤ op ∧ op ≤ 0xFF))) →
    step s = raise .illegalCmd { s with pending := rest }

/-- The last sentence of R73: for the seven commands that do not read OPA, two transactions that differ only in OPA
have the same effect. -/
def Obligations.UnreadOperandHasNoEffect : Prop :=
  ∀ (s : State) (cmd : CmdWord) (v w : Word) (rest : List HostInput),
    cmd ∈ [0x0000#16, 0x0001#16, 0x0004#16, 0x0012#16, 0x0020#16, 0x0021#16, 0x0030#16] →
    step { s with pending := .command ⟨cmd, v⟩ :: rest } = step { s with pending := .command ⟨cmd, w⟩ :: rest }

/-- A step runs the decoded command: in a legal build, when the host's next input is a transaction that decodes to
`i`, the step is `exec i` on the state with that input taken; there is no program counter to move (R37). With nothing
coming from the host the core holds its state, for any number of steps (R220, R232). The list of inputs in the state
is the model's choice (log entry 2). -/
def Obligations.StepRunsTheDecodedCommand : Prop :=
  (∀ (s : State) (c : Command) (rest : List HostInput) (i : Instr),
    s.cfg.wf = true → s.pending = .command c :: rest → decode c = .command i →
    step s = exec i { s with pending := rest }) ∧
  (∀ (n : Nat) (s : State), s.cfg.wf = true → s.pending = [] → runFor n s = .next s)

/-! ## Faults, STATUS and `err` -/

/-- R203: what raising a fault of code c writes: STATUS[c-1], FIRST_CAUSE when it is 0, and the response; every
other bit of STATUS and every other piece of state keeps its value. -/
def Obligations.FaultRecordingWritesStatusAndResponse : Prop :=
  ∀ (c : FaultCode) (s : State), ∃ t, raise c s = .next t ∧
    t.status.getLsbD (c.code - 1) = true ∧
    (∀ k, k < 64 → k ≠ c.code - 1 → (k < 8 ∨ 12 ≤ k) → t.status.getLsbD k = s.status.getLsbD k) ∧
    t.status.extractLsb' 8 4 =
      (if s.status.extractLsb' 8 4 = 0 then BitVec.ofNat 4 c.code else s.status.extractLsb' 8 4) ∧
    t.rsp = some ⟨BitVec.ofNat 64 c.code, true⟩ ∧
    t = { s with faultBits := t.faultBits, firstCause := t.firstCause, rsp := t.rsp }

/-- R12: every command that is run gives a response, and one that answers with the error bit has recorded exactly
one fault, the one whose code it answers, and has written nothing else. -/
def Obligations.CommandThatRaisesWritesOnlyItsFault : Prop :=
  ∀ (i : Instr) (s t : State), exec i s = .next t →
    ∃ r, t.rsp = some r ∧ (r.err = true → ∃ c : FaultCode, r.data = BitVec.ofNat 64 c.code ∧ raise c s = .next t)

/-- R33: no step but a reset clears a fault bit or changes a FIRST_CAUSE that is not 0; a fault sets its bit and
writes FIRST_CAUSE only when it is 0; a reset, in a legal build, clears them all. -/
def Obligations.FaultBitsClearOnlyOnReset : Prop :=
  (∀ s t : State, step s = .next t → (∀ x rest, s.pending = x :: rest → isReset x = false) →
    (∀ k, k < 8 → s.status.getLsbD k = true → t.status.getLsbD k = true) ∧
    (s.status.extractLsb' 8 4 ≠ 0 → t.status.extractLsb' 8 4 = s.status.extractLsb' 8 4)) ∧
  (∀ (c : FaultCode) (s t : State), raise c s = .next t →
    (∀ k, k < 8 → t.status.getLsbD k = (s.status.getLsbD k || decide (k = c.code - 1))) ∧
    (s.status.extractLsb' 8 4 = 0 → t.status.extractLsb' 8 4 = BitVec.ofNat 4 c.code) ∧
    (s.status.extractLsb' 8 4 ≠ 0 → t.status.extractLsb' 8 4 = s.status.extractLsb' 8 4)) ∧
  (∀ (s : State) (x : HostInput) (rest : List HostInput),
    s.cfg.wf = true → s.pending = x :: rest → isReset x = true →
    ∃ t, step s = .next t ∧ t.status.extractLsb' 0 8 = 0 ∧ t.status.extractLsb' 8 4 = 0)

/-- R34: STATUS[16] is the mode, live, and no fault sets it; the reserved bits read 0; and after any inputs from reset
FIRST_CAUSE is 0 to 8 and is not 0 exactly when a fault bit is set. -/
def Obligations.StatusWordReadsAsLaidOut : Prop :=
  (∀ s : State, s.status.getLsbD 16 = true ↔ s.mode = .loading) ∧
  (∀ (c : FaultCode) (s t : State), raise c s = .next t → t.status.getLsbD 16 = s.status.getLsbD 16) ∧
  (∀ (s : State) (k : Nat), (12 ≤ k ∧ k ≤ 15) ∨ (17 ≤ k ∧ k ≤ 63) → s.status.getLsbD k = false) ∧
  (∀ (cfg : Config) (inputs : List HostInput) (n : Nat) (t : State), cfg.wf = true →
    runFor n ((State.resetWith cfg).setPending inputs) = .next t →
    (t.status.extractLsb' 8 4).toNat ≤ 8 ∧ (t.status.extractLsb' 8 4 ≠ 0 ↔ t.status.extractLsb' 0 8 ≠ 0))

/-- R208: `err` is the OR of STATUS[7:0]; it is 0 after reset, rises with a fault, and stays 1 until reset. -/
def Obligations.ErrOutputIsOrOfFaultBits : Prop :=
  (∀ s : State, s.err = true ↔ ∃ k, k < 8 ∧ s.status.getLsbD k = true) ∧
  (∀ cfg : Config, (State.resetWith cfg).err = false) ∧
  (∀ (c : FaultCode) (s t : State), raise c s = .next t → t.err = true) ∧
  (∀ s t : State, step s = .next t → (∀ x rest, s.pending = x :: rest → isReset x = false) →
    s.err = true → t.err = true) ∧
  (∀ (s : State) (x : HostInput) (rest : List HostInput),
    s.cfg.wf = true → s.pending = x :: rest → isReset x = true → ∃ t, step s = .next t ∧ t.err = false)

/-- R214: a command that the matrix makes illegal in the current mode faults SEQ_ERR, and a legal one does not. -/
def Obligations.ModeMatrixDecidesSeqErr : Prop :=
  ∀ (i : Instr) (s : State),
    (legalIn s.mode i = false → exec i s = raise .seqErr s) ∧
    (legalIn s.mode i = true → exec i s ≠ raise .seqErr s)

/-- The 'raised by' column of R201: an error response's code comes only from the commands listed for it, and no
decoded command raises ILLEGAL_CMD. -/
def Obligations.EachFaultComesOnlyFromItsCommands : Prop :=
  ∀ (i : Instr) (s t : State) (d : Word), exec i s = .next t → t.rsp = some ⟨d, true⟩ →
    (d = 2 ∧ (i = .adv ∨ (∃ n, i = .bin n) ∨ (∃ k, i = .hinc k) ∨ i = .step ∨ (∃ v, i = .ldword v) ∨ i = .ldend)) ∨
    (d = 3 ∧ ∃ k, i = .hinc k) ∨
    (d = 4 ∧ ((∃ j, i = .rdword j) ∨ (∃ k, i = .rdhist k) ∨ ∃ j, i = .rdcfg j)) ∨
    (d = 5 ∧ ∃ v, i = .ldword v) ∨
    (d = 6 ∧ (i = .adv ∨ i = .step ∨ ∃ v, i = .ldword v)) ∨
    (d = 7 ∧ ((∃ k, i = .hinc k) ∨ i = .step)) ∨
    (d = 8 ∧ i = .step)

/-- R238: in a legal state every command the host offers, legal or not, is taken and gets its response in one step;
the core never stops. -/
def Obligations.EveryCommandGetsItsResponse : Prop :=
  ∀ s : State, Legal s →
    (∃ t, step s = .next t) ∧
    (∀ c rest, s.pending = .command c :: rest →
      ∃ t r, step s = .next t ∧ t.pending = rest ∧ t.rsp = some r)

/-- Where the model stops, and that it stops nowhere else: a build outside R6 is refused (D37, U8; log entry 6), and
so is an advance of a store with a marker bit set (U12; log entry 5), by the names those have. -/
def Obligations.StopsAreExactlyTheRefusedCases : Prop :=
  (∀ s : State, s.cfg.wf = false → step s = .refused .badBuild) ∧
  (∀ s : State, s.mode = .idle → atRest s.words = false →
    exec .adv s = .refused .markerSet ∧ exec .step s = .refused .markerSet) ∧
  (∀ (i : Instr) (s : State), (∃ t, exec i s = .next t) ∨
    (exec i s = .refused .markerSet ∧ (i = .adv ∨ i = .step) ∧ s.mode = .idle ∧ atRest s.words = false))

/-! ## Compute: ADV and the advance -/

/-- R100: ADV in IDLE replaces the words by `Advance` of them and answers the new NW; it faults SEQ_ERR in LOADING
and CAPACITY when the result needs more than MAXW words; and its corner cases. The premise that every word is below
2^63 is R21. -/
def Obligations.AdvAdvancesTheStore : Prop :=
  (∀ v, decode ⟨0x0001#16, v⟩ = .command .adv) ∧
  (∀ s : State, s.mode = .loading → exec .adv s = raise .seqErr s) ∧
  (∀ s : State, s.mode = .idle → atRest s.words = true → (advance s.words).length ≤ s.cfg.maxw →
    exec .adv s = .next { s with
      words := advance s.words, rsp := some ⟨BitVec.ofNat 64 (advance s.words).length, false⟩ }) ∧
  (∀ s : State, s.mode = .idle → atRest s.words = true → s.cfg.maxw < (advance s.words).length →
    exec .adv s = raise .capacity s) ∧
  advance [3#64] = [9#64] ∧ advance [0#64] = [0#64] ∧
  advance [0x7FFFFFFFFFFFFFFF#64] = [0x7FFFFFFFFFFFFFFD#64, 2#64] ∧
  (∀ ws : List Word, atRest ws = true → (advance (ws ++ [0#64])).length = ws.length + 1)

/-- R102: the advance multiplies the value by exactly 3. -/
def Obligations.AdvanceTriplesTheValue : Prop :=
  ∀ ws : List Word, atRest ws = true → val (advance ws) = 3 * val ws

/-- R103: the doubling loses no bit, the sum of step 2c does not wrap, every output word is below 2^63, and an
appended word is 1 or 2. -/
def Obligations.AdvanceNeverOverflowsAWord : Prop :=
  (∀ (w : Word) (shifted carry : Bool), w.toNat < 2 ^ 63 →
    (w <<< 1).toNat = 2 * w.toNat ∧
    (let doubled := splitMarker ((w <<< 1) + flagWord shifted)
     doubled.1.toNat < 2 ^ 63 ∧
     (w + doubled.1 + flagWord carry).toNat = w.toNat + doubled.1.toNat + carry.toNat ∧
     (splitMarker (w + doubled.1 + flagWord carry)).1.toNat < 2 ^ 63)) ∧
  (∀ ws : List Word, atRest ws = true →
    (∀ x ∈ advance ws, x.toNat < 2 ^ 63) ∧
    ((advance ws).length = ws.length ∨
      ((advance ws).length = ws.length + 1 ∧
        ((advance ws).getLast? = some 1#64 ∨ (advance ws).getLast? = some 2#64))))

/-- R104: the advance appends exactly one word when 3 * Val >= 2^(63*NW), and none otherwise, and the appended word
is the quotient, 1 or 2. -/
def Obligations.AdvanceGrowsExactlyWhenNeeded : Prop :=
  ∀ ws : List Word, atRest ws = true →
    (3 * val ws < 2 ^ (63 * ws.length) → (advance ws).length = ws.length) ∧
    (2 ^ (63 * ws.length) ≤ 3 * val ws →
      (advance ws).length = ws.length + 1 ∧
      (advance ws).getLast? = some (BitVec.ofNat 64 (3 * val ws / 2 ^ (63 * ws.length))) ∧
      (3 * val ws / 2 ^ (63 * ws.length) = 1 ∨ 3 * val ws / 2 ^ (63 * ws.length) = 2))

/-- ADV seen from outside the representation: from a legal state in IDLE, whenever three times the value fits in
MAXW words, ADV succeeds, leaves three times the value in words below 2^63, and touches nothing else. -/
def Obligations.AdvSucceedsWheneverTheProductFits : Prop :=
  ∀ s : State, Legal s → s.mode = .idle → 3 * val s.words < 2 ^ (63 * s.cfg.maxw) →
    ∃ t, exec .adv s = .next t ∧ val t.words = 3 * val s.words ∧ atRest t.words = true ∧
      t.rsp = some ⟨t.nw, false⟩ ∧ t = { s with words := t.words, rsp := t.rsp }

/-! ## Compute: BIN and the window -/

/-- R120: BIN in IDLE answers `BinValue` at its operand and changes nothing else, for every operand; it faults
SEQ_ERR in LOADING; and its corner cases. -/
def Obligations.BinAnswersTheWindow : Prop :=
  (∀ n, decode ⟨0x0002#16, n⟩ = .command (.bin n)) ∧
  (∀ (s : State) (n : Word), s.mode = .idle →
    exec (.bin n) s = .next { s with rsp := some ⟨binValue s.cfg.digits s.words n, false⟩ }) ∧
  (∀ (s : State) (n : Word), s.mode = .loading → exec (.bin n) s = raise .seqErr s) ∧
  (∀ (d : Nat) (ws : List Word), 1 ≤ d → d ≤ 63 → atRest ws = true →
    (binValue d ws 0).toNat = (wordOrZero ws 0).toNat % 2 * 2 ^ (d - 1) ∧
    (binValue d ws (BitVec.ofNat 64 (d - 1))).toNat = (wordOrZero ws 0).toNat % 2 ^ d ∧
    (∀ n : Word, 63 * ws.length + (d - 1) ≤ n.toNat → binValue d ws n = 0)) ∧
  (∀ (ws : List Word) (n : Word), atRest ws = true →
    (n.toNat % 63 = 62 → binValue 63 ws n = wordOrZero ws (n.toNat / 63)) ∧
    (binValue 1 ws n).toNat = val ws / 2 ^ n.toNat % 2) ∧
  (∀ w0 w1 : Word, atRest [w0, w1] = true →
    (binValue 10 [w0, w1] 63).toNat = w1.toNat % 2 * 512 + w0.toNat / 2 ^ 54) ∧
  binValue 10 [3#64] 0 = 512

/-- R124: the two-word extraction is the closed form, bits n down to n - D + 1 of the value with zeros below bit 0,
for every window width, store and 64-bit position. -/
def Obligations.BinValueIsItsClosedForm : Prop :=
  ∀ (d : Nat) (ws : List Word) (n : Word), 1 ≤ d → d ≤ 63 → atRest ws = true →
    (binValue d ws n).toNat = val ws * 2 ^ (d - 1) / 2 ^ n.toNat % 2 ^ d

/-- R125: the window is below 2^D on every store, even one with marker bits set, and BIN, being pure, answers the
same when it is repeated. -/
def Obligations.BinValueIsBelowBinCountAndPure : Prop :=
  (∀ (d : Nat) (ws : List Word) (n : Word), 1 ≤ d → d ≤ 63 → (binValue d ws n).toNat < 2 ^ d) ∧
  (∀ (s t : State) (n : Word), s.mode = .idle → exec (.bin n) s = .next t →
    t = { s with rsp := t.rsp } ∧ exec (.bin n) t = .next t)

/-- R122: a window that reaches below bit 0 is padded with zero bits there, and BIN raises no fault for it. -/
def Obligations.WindowIsZeroPaddedBelowBitZero : Prop :=
  ∀ (s : State) (n : Word), s.cfg.wf = true → s.mode = .idle → n.toNat + 1 < s.cfg.digits →
    ∃ b, exec (.bin n) s = .next { s with rsp := some ⟨b, false⟩ } ∧
      b.toNat % 2 ^ (s.cfg.digits - 1 - n.toNat) = 0 ∧
      b.toNat / 2 ^ (s.cfg.digits - 1 - n.toNat) = (wordOrZero s.words 0).toNat % 2 ^ (n.toNat + 1)

/-! ## Compute: the histogram -/

/-- R140: HINC adds 1 to the counter it names, answers the new count, and changes no other counter and
nothing else; its three faults, in their order. -/
def Obligations.HincAddsOneToItsCounter : Prop :=
  (∀ k, decode ⟨0x0003#16, k⟩ = .command (.hinc k)) ∧
  (∀ (s : State) (k : Word), s.mode = .loading → exec (.hinc k) s = raise .seqErr s) ∧
  (∀ (s : State) (k : Word), s.mode = .idle → 2 ^ s.cfg.digits ≤ k.toNat →
    exec (.hinc k) s = raise .binRange s) ∧
  (∀ (s : State) (k : Word), s.mode = .idle → k.toNat < 2 ^ s.cfg.digits →
    (s.counter k.toNat).toNat = 2 ^ 64 - 1 → exec (.hinc k) s = raise .counterOvf s) ∧
  (∀ (s : State) (k : Word), s.mode = .idle → k.toNat < 2 ^ s.cfg.digits →
    (s.counter k.toNat).toNat < 2 ^ 64 - 1 →
    ∃ t, exec (.hinc k) s = .next t ∧
      (t.counter k.toNat).toNat = (s.counter k.toNat).toNat + 1 ∧
      (∀ j, j ≠ k.toNat → t.counter j = s.counter j) ∧
      t = { s with hist := t.hist, rsp := some ⟨t.counter k.toNat, false⟩ })

/-- R144: RDHIST answers the counter, in both modes, and changes nothing; an index outside 2^D faults. -/
def Obligations.RdhistReadsItsCounter : Prop :=
  (∀ k, decode ⟨0x0023#16, k⟩ = .command (.rdhist k)) ∧
  (∀ (s : State) (k : Word), k.toNat < 2 ^ s.cfg.digits →
    exec (.rdhist k) s = .next { s with rsp := some ⟨s.counter k.toNat, false⟩ }) ∧
  (∀ (s : State) (k : Word), 2 ^ s.cfg.digits ≤ k.toNat → exec (.rdhist k) s = raise .indexRange s)

/-! ## Checkpoint transfer -/

/-- R150: LDBEG, from either mode, sets the cursor, empties the store, enters LOADING and answers 0; the histogram
and the fault bits stay, STATUS[16] reads 1, and no word can be read any more. -/
def Obligations.LdbegStartsALoad : Prop :=
  (∀ c, decode ⟨0x0010#16, c⟩ = .command (.ldbeg c)) ∧
  (∀ (s : State) (c : Word), ∃ t, exec (.ldbeg c) s = .next t ∧
    t = { s with cur := c, words := [], mode := .loading, rsp := some ⟨0, false⟩ } ∧
    t.nw = 0 ∧ t.status.getLsbD 16 = true ∧ t.status.extractLsb' 0 12 = s.status.extractLsb' 0 12 ∧
    ∀ i, exec (.rdword i) t = raise .indexRange t)

/-- R151: LDWORD in LOADING appends a word below 2^63 and answers the new NW; its three faults, in their order, each
leaving the load in progress as it was. -/
def Obligations.LdwordAppendsOneWord : Prop :=
  (∀ v, decode ⟨0x0011#16, v⟩ = .command (.ldword v)) ∧
  (∀ (s : State) (v : Word), s.mode = .idle → exec (.ldword v) s = raise .seqErr s) ∧
  (∀ (s : State) (v : Word), s.mode = .loading → 2 ^ 63 ≤ v.toNat → exec (.ldword v) s = raise .wordRange s) ∧
  (∀ (s : State) (v : Word), s.mode = .loading → v.toNat < 2 ^ 63 → s.words.length = s.cfg.maxw →
    exec (.ldword v) s = raise .capacity s) ∧
  (∀ (s : State) (v : Word), s.mode = .loading → v.toNat < 2 ^ 63 → s.words.length ≠ s.cfg.maxw →
    exec (.ldword v) s = .next { s with
      words := s.words ++ [v], rsp := some ⟨BitVec.ofNat 64 (s.words.length + 1), false⟩ })

/-- R152: LDEND in LOADING ends the load, seeding an empty store with [3] whatever the cursor, and answers NW; in
IDLE it faults SEQ_ERR. -/
def Obligations.LdendEndsTheLoad : Prop :=
  (∀ v, decode ⟨0x0012#16, v⟩ = .command .ldend) ∧
  (∀ s : State, s.mode = .idle → exec .ldend s = raise .seqErr s) ∧
  (∀ s : State, s.mode = .loading → s.words = [] →
    exec .ldend s = .next { s with words := [3#64], mode := .idle, rsp := some ⟨1, false⟩ }) ∧
  (∀ s : State, s.mode = .loading → s.words ≠ [] →
    exec .ldend s = .next { s with mode := .idle, rsp := some ⟨BitVec.ofNat 64 s.words.length, false⟩ }) ∧
  (∀ s t : State, s.mode = .loading → exec .ldend s = .next t → t.status.getLsbD 16 = false)

/-- R153: RDCUR answers the cursor in both modes, and during a load, whatever commands came since LDBEG, that is the
cursor given to LDBEG. -/
def Obligations.RdcurReadsTheCursor : Prop :=
  (∀ v, decode ⟨0x0020#16, v⟩ = .command .rdcur) ∧
  (∀ s : State, exec .rdcur s = .next { s with rsp := some ⟨s.cur, false⟩ }) ∧
  (∀ (s t u : State) (c : Word) (is : List Instr), exec (.ldbeg c) s = .next t →
    (∀ i ∈ is, i ≠ .ldend ∧ ∀ c', i ≠ .ldbeg c') → runFor is.length (t.given is) = .next u →
    exec .rdcur u = .next { u with rsp := some ⟨c, false⟩ })

/-- R154: RDNW answers the number of valid words in both modes; in a legal state the 64-bit register holds that number
exactly (R22), and 0 only during a load with no word in it yet. -/
def Obligations.RdnwReadsTheWordCount : Prop :=
  (∀ v, decode ⟨0x0021#16, v⟩ = .command .rdnw) ∧
  (∀ s : State, exec .rdnw s = .next { s with rsp := some ⟨s.nw, false⟩ }) ∧
  (∀ s : State, Legal s → s.nw.toNat = s.words.length ∧ (s.nw = 0 → s.mode = .loading ∧ s.words = []))

/-- R155: RDWORD answers word i when i < NW, in both modes, and that word is below 2^63 in a legal state; i >= NW
faults INDEX_RANGE. -/
def Obligations.RdwordReadsAValidWord : Prop :=
  (∀ i, decode ⟨0x0022#16, i⟩ = .command (.rdword i)) ∧
  (∀ (s : State) (i w : Word), s.words[i.toNat]? = some w →
    exec (.rdword i) s = .next { s with rsp := some ⟨w, false⟩ }) ∧
  (∀ (s : State) (i : Word), s.words.length ≤ i.toNat → exec (.rdword i) s = raise .indexRange s) ∧
  (∀ (s : State) (i : Word), i.toNat < s.words.length → ∃ w, s.words[i.toNat]? = some w ∧
    (atRest s.words = true → w.toNat < 2 ^ 63))

/-! ## STEP -/

/-- R170 and R171: STEP reads its bin from the words before the advance, adds 1 to that counter, advances the words,
adds 1 to the cursor and answers the bin, which is always a bin of the build; its four faults, in their order. The
premise that every word is below 2^63 is R21. -/
def Obligations.StepDoesOneIteration : Prop :=
  (∀ v, decode ⟨0x0004#16, v⟩ = .command .step) ∧
  (∀ s : State, s.mode = .loading → exec .step s = raise .seqErr s) ∧
  (∀ s : State, s.mode = .idle → atRest s.words = true → s.cfg.maxw < (advance s.words).length →
    exec .step s = raise .capacity s) ∧
  (∀ s : State, s.mode = .idle → atRest s.words = true → (advance s.words).length ≤ s.cfg.maxw →
    (s.counter (binValue s.cfg.digits s.words s.cur).toNat).toNat = 2 ^ 64 - 1 →
    exec .step s = raise .counterOvf s) ∧
  (∀ s : State, s.mode = .idle → atRest s.words = true → (advance s.words).length ≤ s.cfg.maxw →
    (s.counter (binValue s.cfg.digits s.words s.cur).toNat).toNat < 2 ^ 64 - 1 → s.cur.toNat = 2 ^ 64 - 1 →
    exec .step s = raise .cursorOvf s) ∧
  (∀ s : State, s.mode = .idle → atRest s.words = true → (advance s.words).length ≤ s.cfg.maxw →
    (s.counter (binValue s.cfg.digits s.words s.cur).toNat).toNat < 2 ^ 64 - 1 → s.cur.toNat < 2 ^ 64 - 1 →
    ∃ t, exec .step s = .next t ∧
      t.rsp = some ⟨binValue s.cfg.digits s.words s.cur, false⟩ ∧
      (t.counter (binValue s.cfg.digits s.words s.cur).toNat).toNat =
        (s.counter (binValue s.cfg.digits s.words s.cur).toNat).toNat + 1 ∧
      (∀ j, j ≠ (binValue s.cfg.digits s.words s.cur).toNat → t.counter j = s.counter j) ∧
      t.words = advance s.words ∧ t.cur.toNat = s.cur.toNat + 1 ∧
      t = { s with words := t.words, cur := t.cur, hist := t.hist, rsp := t.rsp }) ∧
  (∀ s : State, s.cfg.wf = true → (binValue s.cfg.digits s.words s.cur).toNat < 2 ^ s.cfg.digits)

/-- STEP in closed form: from a legal state in IDLE, when the product fits in MAXW words and neither the counter nor
the cursor is at its maximum, the value is tripled and the bin is the window of the old value at the cursor. -/
def Obligations.StepInClosedForm : Prop :=
  ∀ s : State, Legal s → s.mode = .idle → 3 * val s.words < 2 ^ (63 * s.cfg.maxw) →
    (s.counter (window s.cfg.digits (val s.words) s.cur.toNat)).toNat < 2 ^ 64 - 1 → s.cur.toNat < 2 ^ 64 - 1 →
    ∃ t, exec .step s = .next t ∧ val t.words = 3 * val s.words ∧ t.cur.toNat = s.cur.toNat + 1 ∧
      t.rsp = some ⟨BitVec.ofNat 64 (window s.cfg.digits (val s.words) s.cur.toNat), false⟩ ∧
      ∀ j, (t.counter j).toNat =
        (s.counter j).toNat + (if j = window s.cfg.digits (val s.words) s.cur.toNat then 1 else 0)

/-- R172: when no fault occurs, one STEP has the effect of `bin CUR`, `hinc b` with its response, `adv`, and then
CUR + 1. -/
def Obligations.StepIsBinThenHincThenAdv : Prop :=
  ∀ (s t : State) (b : Word), s.cfg.wf = true → exec .step s = .next t → t.rsp = some ⟨b, false⟩ →
    ∃ s1 s2 s3, exec (.bin s.cur) s = .next s1 ∧ s1.rsp = some ⟨b, false⟩ ∧
      exec (.hinc b) s1 = .next s2 ∧ s2.rsp = some ⟨t.counter b.toNat, false⟩ ∧
      exec .adv s2 = .next s3 ∧ s3.rsp = some ⟨t.nw, false⟩ ∧
      t.words = s3.words ∧ t.hist = s3.hist ∧ t.cur = s3.cur + 1 ∧
      t = { s3 with cur := s3.cur + 1, rsp := t.rsp }

/-! ## Control -/

/-- R180: NOP answers 0 and leaves every piece of state, in both modes; 0x0100 is not a NOP, and in a legal build
raises ILLEGAL_CMD. -/
def Obligations.NopChangesNothing : Prop :=
  (∀ v, decode ⟨0x0000#16, v⟩ = .command .nop) ∧
  (∀ s : State, exec .nop s = .next { s with rsp := some ⟨0, false⟩ }) ∧
  (∀ (s : State) (v : Word) (rest : List HostInput), s.cfg.wf = true →
    s.pending = .command ⟨0x0100#16, v⟩ :: rest → step s = raise .illegalCmd { s with pending := rest })

/-- R181: RDSTAT answers STATUS in both modes, with the fields of R32, and clears nothing. -/
def Obligations.RdstatReadsStatus : Prop :=
  (∀ v, decode ⟨0x0030#16, v⟩ = .command .rdstat) ∧
  (∀ s : State, exec .rdstat s = .next { s with rsp := some ⟨s.status, false⟩ }) ∧
  (∀ s : State, s.status.extractLsb' 0 8 = s.faultBits ∧ s.status.extractLsb' 8 4 = s.firstCause ∧
    s.status.extractLsb' 12 4 = 0 ∧ (s.status.getLsbD 16 = true ↔ s.mode = .loading) ∧
    s.status.extractLsb' 17 47 = 0)

/-- R182: RDCFG answers D, MAXW and CW = 64 at the indices 0, 1 and 2 in both modes, and faults at 3 and above; the
values are whole in a legal build, and no step changes the build. -/
def Obligations.RdcfgReadsTheBuild : Prop :=
  (∀ j, decode ⟨0x0031#16, j⟩ = .command (.rdcfg j)) ∧
  (∀ s : State, exec (.rdcfg 0) s = .next { s with rsp := some ⟨BitVec.ofNat 64 s.cfg.digits, false⟩ } ∧
    exec (.rdcfg 1) s = .next { s with rsp := some ⟨BitVec.ofNat 64 s.cfg.maxw, false⟩ } ∧
    exec (.rdcfg 2) s = .next { s with rsp := some ⟨64, false⟩ }) ∧
  (∀ (s : State) (j : Word), 3 ≤ j.toNat → exec (.rdcfg j) s = raise .indexRange s) ∧
  (∀ cfg : Config, cfg.wf = true → (BitVec.ofNat 64 cfg.digits).toNat = cfg.digits ∧
    (BitVec.ofNat 64 cfg.maxw).toNat = cfg.maxw) ∧
  (∀ s t : State, step s = .next t → t.cfg = s.cfg)

/-! ## Which command writes what -/

/-- The write columns of R39, as a frame for all fourteen commands: W and NW are written only by ADV, STEP, LDBEG,
LDWORD and LDEND; CUR only by STEP and LDBEG; H only by HINC and STEP; MODE only by LDBEG and LDEND; the build and
the host's remaining inputs by none; and on success STATUS's fault bits and FIRST_CAUSE by none. -/
def Obligations.CommandsWriteOnlyTheirColumns : Prop :=
  ∀ (i : Instr) (s t : State), exec i s = .next t →
    (i ≠ .adv → i ≠ .step → (∀ c, i ≠ .ldbeg c) → (∀ v, i ≠ .ldword v) → i ≠ .ldend → t.words = s.words) ∧
    (i ≠ .step → (∀ c, i ≠ .ldbeg c) → t.cur = s.cur) ∧
    ((∀ k, i ≠ .hinc k) → i ≠ .step → t.hist = s.hist) ∧
    ((∀ c, i ≠ .ldbeg c) → i ≠ .ldend → t.mode = s.mode) ∧
    (∀ d, t.rsp = some ⟨d, false⟩ → t.faultBits = s.faultBits ∧ t.firstCause = s.firstCause) ∧
    t.cfg = s.cfg ∧ t.pending = s.pending

/-- R21: every command, and every step, keeps every word below 2^63. -/
def Obligations.WordsStayBelowTheMarker : Prop :=
  (∀ (i : Instr) (s t : State), atRest s.words = true → exec i s = .next t → atRest t.words = true) ∧
  (∀ s t : State, atRest s.words = true → step s = .next t →
    ∀ (j : Nat) (w : Word), t.words[j]? = some w → w.getLsbD 63 = false)

/-- R22: NW stays at most MAXW in every mode and at least 1 in IDLE, and the 64-bit register holds the number of
valid words exactly. -/
def Obligations.WordCountStaysInRange : Prop :=
  ∀ s t : State, CountInRange s → step s = .next t →
    CountInRange t ∧ t.nw.toNat = t.words.length ∧ (t.nw = 0 → t.mode = .loading)

/-- R24: what each command does to NW. -/
def Obligations.WordCountChangesOnlyAsListed : Prop :=
  (∀ s t : State, (exec .adv s = .next t ∨ exec .step s = .next t) →
    t.words.length = s.words.length ∨ t.words.length = s.words.length + 1) ∧
  (∀ (c : Word) (s t : State), exec (.ldbeg c) s = .next t → t.words.length = 0) ∧
  (∀ (v d : Word) (s t : State) (err : Bool), exec (.ldword v) s = .next t → t.rsp = some ⟨d, err⟩ →
    t.words.length = (if err then s.words.length else s.words.length + 1)) ∧
  (∀ s t : State, exec .ldend s = .next t →
    t.words.length = (if s.mode = .loading ∧ s.words.length = 0 then 1 else s.words.length)) ∧
  (∀ (i : Instr) (s t : State), i ≠ .adv → i ≠ .step → (∀ c, i ≠ .ldbeg c) → (∀ v, i ≠ .ldword v) → i ≠ .ldend →
    exec i s = .next t → t.words.length = s.words.length) ∧
  (∀ (s t : State) (x : HostInput) (rest : List HostInput), step s = .next t → s.pending = x :: rest →
    isReset x = true → t.words.length = 1) ∧
  (∀ (i : Instr) (s t : State), (∀ c, i ≠ .ldbeg c) → exec i s = .next t → s.words.length ≤ t.words.length)

/-- R28: CUR is written only by LDBEG, by a STEP that succeeds, which adds 1 without wrapping, and by reset; and ADV,
BIN and HINC do the same whatever CUR holds. -/
def Obligations.CursorChangesOnlyAsListed : Prop :=
  (∀ (i : Instr) (s t : State), exec i s = .next t →
    t.cur = s.cur ∨ i = .ldbeg t.cur ∨ (i = .step ∧ t.cur.toNat = s.cur.toNat + 1)) ∧
  (∀ (c : Word) (s t : State), exec (.ldbeg c) s = .next t → t.cur = c) ∧
  (∀ (s t : State) (d : Word), exec .step s = .next t → t.rsp = some ⟨d, false⟩ →
    t.cur.toNat = s.cur.toNat + 1) ∧
  (∀ (s t : State) (x : HostInput) (rest : List HostInput), step s = .next t → s.pending = x :: rest →
    isReset x = true → t.cur = 0) ∧
  (∀ (i : Instr) (s t : State) (c : Word), (i = .adv ∨ (∃ n, i = .bin n) ∨ ∃ k, i = .hinc k) →
    exec i s = .next t → exec i { s with cur := c } = .next { t with cur := c })

/-- R30: a counter is written only by HINC and STEP, which add 1 to one counter without wrapping, and by reset,
which sets every counter to 0; so within a run no counter ever decreases, and a checkpoint load leaves them all. -/
def Obligations.CountersOnlyEverIncrement : Prop :=
  (∀ (i : Instr) (s t : State), exec i s = .next t →
    t.hist = s.hist ∨
    (((∃ k, i = .hinc k) ∨ i = .step) ∧ ∃ k, (t.counter k).toNat = (s.counter k).toNat + 1 ∧
      ∀ j, j ≠ k → t.counter j = s.counter j)) ∧
  (∀ (i : Instr) (s t : State) (d : Word), ((∃ k, i = .hinc k) ∨ i = .step) → exec i s = .next t →
    t.rsp = some ⟨d, false⟩ → ∃ k, (t.counter k).toNat = (s.counter k).toNat + 1 ∧
      ∀ j, j ≠ k → t.counter j = s.counter j) ∧
  (∀ (s t : State) (x : HostInput) (rest : List HostInput), step s = .next t → s.pending = x :: rest →
    isReset x = true → ∀ k, t.counter k = 0) ∧
  (∀ s t : State, step s = .next t → (∀ x rest, s.pending = x :: rest → isReset x = false) →
    ∀ k, (s.counter k).toNat ≤ (t.counter k).toNat) ∧
  (∀ (i : Instr) (s t : State), ((∃ c, i = .ldbeg c) ∨ (∃ v, i = .ldword v) ∨ i = .ldend) →
    exec i s = .next t → t.hist = s.hist)

/-- R31: MODE is written only by LDBEG, which enters LOADING from either mode, by LDEND, legal only in LOADING, which
enters IDLE, and by reset, which sets IDLE; it shows as STATUS[16]. -/
def Obligations.ModeChangesOnlyAsListed : Prop :=
  (∀ (i : Instr) (s t : State), exec i s = .next t →
    (t.mode = s.mode ∨ ((∃ c, i = .ldbeg c) ∧ t.mode = .loading) ∨
      (i = .ldend ∧ s.mode = .loading ∧ t.mode = .idle))) ∧
  (∀ (c : Word) (s t : State), exec (.ldbeg c) s = .next t → t.mode = .loading) ∧
  (∀ s t : State, exec .ldend s = .next t → t.mode = .idle ∧
    (s.mode = .idle → t.rsp = some ⟨2, true⟩)) ∧
  (∀ (s t : State) (x : HostInput) (rest : List HostInput), step s = .next t → s.pending = x :: rest →
    isReset x = true → t.mode = .idle) ∧
  (∀ s : State, s.status.getLsbD 16 = loadingBit s.mode)

/-- The read commands and BIN (R58): in any run of them and NOPs, however many fault, the words, the cursor, the
counters and the mode stay, so every answer comes from one consistent state (R66); and one that succeeds answers the
same when it is repeated at once, and, but for RDSTAT, which shows the faults of such a run, after any such run. -/
def Obligations.ReadsAnswerFromOneUnchangedState : Prop :=
  (∀ (is : List Instr) (s : State), s.cfg.wf = true → (∀ i ∈ is, readsOnly i = true ∨ i = .nop) →
    ∃ t, runFor is.length (s.given is) = .next t ∧
      t = { s with faultBits := t.faultBits, firstCause := t.firstCause, rsp := t.rsp, pending := [] }) ∧
  (∀ (i : Instr) (s t : State) (d : Word), readsOnly i = true → exec i s = .next t →
    t.rsp = some ⟨d, false⟩ → t = { s with rsp := some ⟨d, false⟩ } ∧ exec i t = .next t) ∧
  (∀ (i : Instr) (s t : State) (d : Word), readsOnly i = true → i ≠ .rdstat → exec i s = .next t →
    t.rsp = some ⟨d, false⟩ →
    ∀ (is : List Instr) (u : State), s.cfg.wf = true → (∀ i' ∈ is, readsOnly i' = true ∨ i' = .nop) →
      runFor is.length (t.given is) = .next u → exec i u = .next { u with rsp := some ⟨d, false⟩ })

/-! ## Reset -/

/-- Reset, at power-on and whenever `rst` comes, gives every piece of state its value of R40, from every state of a
legal build (from R230). The last two clauses, that the build and the host's remaining inputs stay, are the model's
(log entry 9, DEDUCED). -/
def Obligations.ResetGivesEveryResetValue : Prop :=
  (∀ t : State, (t = State.reset ∨ ∃ cfg, t = State.resetWith cfg) →
    t.words = [3#64] ∧ t.nw = 1 ∧ t.cur = 0 ∧ (∀ k, t.counter k = 0) ∧ t.mode = .idle ∧ t.status = 0) ∧
  (∀ (s : State) (rest : List HostInput), s.cfg.wf = true → s.pending = .reset :: rest →
    ∃ t, step s = .next t ∧ t.words = [3#64] ∧ t.nw = 1 ∧ t.cur = 0 ∧ (∀ k, t.counter k = 0) ∧ t.mode = .idle ∧
      t.status = 0 ∧ t.cfg = s.cfg ∧ t.pending = rest)

/-- A command in progress when reset comes, in a legal build, is abandoned: the state is the reset state, the same as if
no command had been offered, whichever it was, and a partial load is lost (from R231). Two clauses are the model's
choice: that `rsp` is none afterwards, its way to say that the response is never delivered (log entry 4, DESIGN
CHOICE), and that the host's remaining inputs stay (log entry 9, DEDUCED). -/
def Obligations.ResetAbandonsTheCommandInProgress : Prop :=
  ∀ (s : State) (c : Command) (rest : List HostInput), s.cfg.wf = true → s.pending = .resetDuring c :: rest →
    ∃ t, step s = .next t ∧ t.rsp = none ∧ t.words = [3#64] ∧ t.cur = 0 ∧ (∀ k, t.counter k = 0) ∧
      t.mode = .idle ∧ t.status = 0 ∧ t.pending = rest ∧ step { s with pending := .reset :: rest } = .next t

/-- R233: the `seed` sequence, from any state of a legal build, reaches the words, NW, cursor and mode of reset, and leaves the
histogram. -/
def Obligations.SeedSequenceIsAFreshStart : Prop :=
  ∀ s : State, s.cfg.wf = true →
    ∃ t, runFor 2 (s.given Pseudo.seed) = .next t ∧
      t.words = (State.resetWith s.cfg).words ∧ t.nw = (State.resetWith s.cfg).nw ∧
      t.cur = (State.resetWith s.cfg).cur ∧ t.mode = (State.resetWith s.cfg).mode ∧ t.hist = s.hist ∧
      t.faultBits = s.faultBits

/-! ## Laws of whole runs -/

/-- The reset state of every legal build is legal, and so is `State.reset`. -/
def Obligations.ResetStateIsLegal : Prop :=
  Legal State.reset ∧ ∀ cfg : Config, cfg.wf = true → Legal (State.resetWith cfg)

/-- Headline: every step, whatever the host does next, takes a legal state to a legal state: the words below 2^63
(R21), NW in range (R22), the histogram canonical (R29), STATUS legal (R34), the last error response recorded
(R203). -/
def Obligations.StepKeepsEveryStateLegal : Prop :=
  ∀ s t : State, Legal s → step s = .next t → Legal t

/-- R25: from reset, with any number of ADV and STEP commands and no load, the top word is never 0; and a checkpoint
load may leave a top word of 0, which the core does not check. -/
def Obligations.TopWordIsNeverZeroWithoutALoad : Prop :=
  (∀ (cfg : Config) (is : List Instr) (t : State), cfg.wf = true → (∀ i ∈ is, i = .adv ∨ i = .step) →
    runFor is.length ((State.resetWith cfg).given is) = .next t →
    ∃ w, t.words.getLast? = some w ∧ w ≠ 0) ∧
  (∀ s : State, s.mode = .loading → s.words.length ≠ s.cfg.maxw →
    ∃ t u, exec (.ldword 0) s = .next t ∧ exec .ldend t = .next u ∧ u.mode = .idle ∧
      u.words = s.words ++ [0#64])

/-- R26: from reset, with any number of ADV and STEP commands and no load, NW is the bit length of the value divided
by 63, rounded up. -/
def Obligations.WordCountIsTheValuesLength : Prop :=
  ∀ (cfg : Config) (is : List Instr) (t : State), cfg.wf = true → (∀ i ∈ is, i = .adv ∨ i = .step) →
    runFor is.length ((State.resetWith cfg).given is) = .next t →
    t.words.length = (Nat.size (val t.words) + 62) / 63

/-- R142: in a run from reset, of any commands, with no fault recorded at its end, the counters sum to the number of
HINC and STEP commands. -/
def Obligations.CounterSumIsTheNumberOfIncrements : Prop :=
  ∀ (cfg : Config) (is : List Instr) (t : State), cfg.wf = true →
    runFor is.length ((State.resetWith cfg).given is) = .next t → t.faultBits = 0 →
    counterTotal t = (is.filter (fun i => match i with
      | .hinc _ => true
      | .step => true
      | _ => false)).length

/-- R173: from reset, k STEPs that fit leave the value 3^(k+1), the cursor k, and each counter b at the number of
iterations whose bin was b, with no fault recorded; and the next STEP answers b_k in closed form. -/
def Obligations.RunFromSeedFollowsTheRunLaw : Prop :=
  ∀ (cfg : Config) (k : Nat), cfg.wf = true → SeedRunFits cfg k →
    ∃ t, runFor k ((State.resetWith cfg).given (Pseudo.run k)) = .next t ∧
      val t.words = 3 ^ (k + 1) ∧ t.cur.toNat = k ∧
      (∀ b, (t.counter b).toNat = seedCount cfg.digits k b) ∧ t.mode = .idle ∧ t.status = 0 ∧
      (SeedRunFits cfg (k + 1) → ∃ u, exec .step t = .next u ∧
        u.rsp = some ⟨BitVec.ofNat 64 (3 ^ (k + 1) * 2 ^ (cfg.digits - 1) / 2 ^ k % 2 ^ cfg.digits), false⟩)

/-- On a run from the seed the cursor's word is always a valid one (R123's last sentence, R8), so a STEP there never
reads above the store. -/
def Obligations.SeedRunNeverReadsAboveTheStore : Prop :=
  ∀ (cfg : Config) (k : Nat) (t : State), cfg.wf = true → SeedRunFits cfg k →
    runFor k ((State.resetWith cfg).given (Pseudo.run k)) = .next t →
    t.cur.toNat / 63 < t.words.length

/-- R156: the `load` sequence of any cursor and any non-empty word sequence that fits leaves exactly that cursor and
those words, and the `save` commands read exactly them back. -/
def Obligations.LoadThenSaveRoundTrips : Prop :=
  ∀ (s : State) (c : Word) (ws : List Word), s.cfg.wf = true → ws ≠ [] → ws.length ≤ s.cfg.maxw →
    (∀ w ∈ ws, w.toNat < 2 ^ 63) →
    ∃ t, runFor (ws.length + 2) (s.given (Pseudo.load c ws)) = .next t ∧
      t = { s with cur := c, words := ws, mode := .idle, pending := [],
                   rsp := some ⟨BitVec.ofNat 64 ws.length, false⟩ } ∧
      exec .rdcur t = .next { t with rsp := some ⟨c, false⟩ } ∧
      exec .rdnw t = .next { t with rsp := some ⟨BitVec.ofNat 64 ws.length, false⟩ } ∧
      ∀ (i : Nat) (w : Word), ws[i]? = some w →
        exec (.rdword (BitVec.ofNat 64 i)) t = .next { t with rsp := some ⟨w, false⟩ }

/-- Determinism of the words and the cursor (from R157): two states of the same build that agree on W, CUR and MODE,
whatever their counters, flags and history, agree on W, CUR and MODE after any command, provided no counter is at its
maximum (where STEP faults). -/
def Obligations.WordsAndCursorIgnoreHistory : Prop :=
  ∀ (i : Instr) (s t s' t' : State), s'.cfg = s.cfg → s'.words = s.words → s'.cur = s.cur → s'.mode = s.mode →
    (∀ k, s.counter k ≠ maxWord) → (∀ k, s'.counter k ≠ maxWord) →
    exec i s = .next t → exec i s' = .next t' →
    t'.words = t.words ∧ t'.cur = t.cur ∧ t'.mode = t.mode

/-- R175 and R143: N iterations in one pass, or m, a save, a reset, a load of what was saved, and N - m more, end with
the same words, NW and cursor, and the two histograms of the second way add up, counter by counter, to the one of the
first. -/
def Obligations.ResumedRunEqualsTheSingleRun : Prop :=
  ∀ (cfg : Config) (m n : Nat), cfg.wf = true → m ≤ n → SeedRunFits cfg n →
    ∃ one first second,
      runFor n ((State.resetWith cfg).given (Pseudo.run n)) = .next one ∧
      runFor m ((State.resetWith cfg).given (Pseudo.run m)) = .next first ∧
      runFor (1 + (first.words.length + 2) + (n - m)) (first.setPending
        (.reset :: issue (Pseudo.load first.cur first.words ++ Pseudo.run (n - m)))) = .next second ∧
      second.words = one.words ∧ second.nw = one.nw ∧ second.cur = one.cur ∧
      ∀ k, (first.counter k).toNat + (second.counter k).toNat = (one.counter k).toNat

/-! ## The assembler -/

/-- The line R78 writes for a command is well formed and assembles to that command, whatever its operand. -/
def Obligations.WrittenLineAssemblesToItsCommand : Prop :=
  ∀ i : Instr, (lineOf i).wf = true ∧ instrOfLine (lineOf i) = some i
end

