-- ==== Sys2Proof/Laws/State.lean ====
section
/-! SUPPORT. One lemma per field per update of the state, so that no later proof unfolds an update. -/

namespace Sys2Proof.Machine

@[simp] theorem State.setWords_words (s : State) (ws : List Word) : (s.setWords ws).words = ws := rfl
@[simp] theorem State.setWords_cur (s : State) (ws : List Word) : (s.setWords ws).cur = s.cur := rfl
@[simp] theorem State.setWords_hist (s : State) (ws : List Word) : (s.setWords ws).hist = s.hist := rfl
@[simp] theorem State.setWords_mode (s : State) (ws : List Word) : (s.setWords ws).mode = s.mode := rfl
@[simp] theorem State.setWords_faultBits (s : State) (ws : List Word) : (s.setWords ws).faultBits = s.faultBits := rfl
@[simp] theorem State.setWords_firstCause (s : State) (ws : List Word) : (s.setWords ws).firstCause = s.firstCause := rfl
@[simp] theorem State.setWords_cfg (s : State) (ws : List Word) : (s.setWords ws).cfg = s.cfg := rfl
@[simp] theorem State.setWords_pending (s : State) (ws : List Word) : (s.setWords ws).pending = s.pending := rfl
@[simp] theorem State.setWords_rsp (s : State) (ws : List Word) : (s.setWords ws).rsp = s.rsp := rfl

@[simp] theorem State.setCur_words (s : State) (c : Word) : (s.setCur c).words = s.words := rfl
@[simp] theorem State.setCur_cur (s : State) (c : Word) : (s.setCur c).cur = c := rfl
@[simp] theorem State.setCur_hist (s : State) (c : Word) : (s.setCur c).hist = s.hist := rfl
@[simp] theorem State.setCur_mode (s : State) (c : Word) : (s.setCur c).mode = s.mode := rfl
@[simp] theorem State.setCur_faultBits (s : State) (c : Word) : (s.setCur c).faultBits = s.faultBits := rfl
@[simp] theorem State.setCur_firstCause (s : State) (c : Word) : (s.setCur c).firstCause = s.firstCause := rfl
@[simp] theorem State.setCur_cfg (s : State) (c : Word) : (s.setCur c).cfg = s.cfg := rfl
@[simp] theorem State.setCur_pending (s : State) (c : Word) : (s.setCur c).pending = s.pending := rfl
@[simp] theorem State.setCur_rsp (s : State) (c : Word) : (s.setCur c).rsp = s.rsp := rfl

@[simp] theorem State.setMode_words (s : State) (m : Mode) : (s.setMode m).words = s.words := rfl
@[simp] theorem State.setMode_cur (s : State) (m : Mode) : (s.setMode m).cur = s.cur := rfl
@[simp] theorem State.setMode_hist (s : State) (m : Mode) : (s.setMode m).hist = s.hist := rfl
@[simp] theorem State.setMode_mode (s : State) (m : Mode) : (s.setMode m).mode = m := rfl
@[simp] theorem State.setMode_faultBits (s : State) (m : Mode) : (s.setMode m).faultBits = s.faultBits := rfl
@[simp] theorem State.setMode_firstCause (s : State) (m : Mode) : (s.setMode m).firstCause = s.firstCause := rfl
@[simp] theorem State.setMode_cfg (s : State) (m : Mode) : (s.setMode m).cfg = s.cfg := rfl
@[simp] theorem State.setMode_pending (s : State) (m : Mode) : (s.setMode m).pending = s.pending := rfl
@[simp] theorem State.setMode_rsp (s : State) (m : Mode) : (s.setMode m).rsp = s.rsp := rfl

@[simp] theorem State.setHist_words (s : State) (h : List (Nat × Word)) : (s.setHist h).words = s.words := rfl
@[simp] theorem State.setHist_cur (s : State) (h : List (Nat × Word)) : (s.setHist h).cur = s.cur := rfl
@[simp] theorem State.setHist_hist (s : State) (h : List (Nat × Word)) : (s.setHist h).hist = h := rfl
@[simp] theorem State.setHist_mode (s : State) (h : List (Nat × Word)) : (s.setHist h).mode = s.mode := rfl
@[simp] theorem State.setHist_faultBits (s : State) (h : List (Nat × Word)) : (s.setHist h).faultBits = s.faultBits := rfl
@[simp] theorem State.setHist_firstCause (s : State) (h : List (Nat × Word)) : (s.setHist h).firstCause = s.firstCause := rfl
@[simp] theorem State.setHist_cfg (s : State) (h : List (Nat × Word)) : (s.setHist h).cfg = s.cfg := rfl
@[simp] theorem State.setHist_pending (s : State) (h : List (Nat × Word)) : (s.setHist h).pending = s.pending := rfl
@[simp] theorem State.setHist_rsp (s : State) (h : List (Nat × Word)) : (s.setHist h).rsp = s.rsp := rfl

@[simp] theorem State.setFlags_words (s : State) (b : BitVec 8) (f : BitVec 4) : (s.setFlags b f).words = s.words := rfl
@[simp] theorem State.setFlags_cur (s : State) (b : BitVec 8) (f : BitVec 4) : (s.setFlags b f).cur = s.cur := rfl
@[simp] theorem State.setFlags_hist (s : State) (b : BitVec 8) (f : BitVec 4) : (s.setFlags b f).hist = s.hist := rfl
@[simp] theorem State.setFlags_mode (s : State) (b : BitVec 8) (f : BitVec 4) : (s.setFlags b f).mode = s.mode := rfl
@[simp] theorem State.setFlags_faultBits (s : State) (b : BitVec 8) (f : BitVec 4) : (s.setFlags b f).faultBits = b := rfl
@[simp] theorem State.setFlags_firstCause (s : State) (b : BitVec 8) (f : BitVec 4) : (s.setFlags b f).firstCause = f := rfl
@[simp] theorem State.setFlags_cfg (s : State) (b : BitVec 8) (f : BitVec 4) : (s.setFlags b f).cfg = s.cfg := rfl
@[simp] theorem State.setFlags_pending (s : State) (b : BitVec 8) (f : BitVec 4) : (s.setFlags b f).pending = s.pending := rfl
@[simp] theorem State.setFlags_rsp (s : State) (b : BitVec 8) (f : BitVec 4) : (s.setFlags b f).rsp = s.rsp := rfl

@[simp] theorem State.setRsp_words (s : State) (r : Response) : (s.setRsp r).words = s.words := rfl
@[simp] theorem State.setRsp_cur (s : State) (r : Response) : (s.setRsp r).cur = s.cur := rfl
@[simp] theorem State.setRsp_hist (s : State) (r : Response) : (s.setRsp r).hist = s.hist := rfl
@[simp] theorem State.setRsp_mode (s : State) (r : Response) : (s.setRsp r).mode = s.mode := rfl
@[simp] theorem State.setRsp_faultBits (s : State) (r : Response) : (s.setRsp r).faultBits = s.faultBits := rfl
@[simp] theorem State.setRsp_firstCause (s : State) (r : Response) : (s.setRsp r).firstCause = s.firstCause := rfl
@[simp] theorem State.setRsp_cfg (s : State) (r : Response) : (s.setRsp r).cfg = s.cfg := rfl
@[simp] theorem State.setRsp_pending (s : State) (r : Response) : (s.setRsp r).pending = s.pending := rfl
@[simp] theorem State.setRsp_rsp (s : State) (r : Response) : (s.setRsp r).rsp = some r := rfl

@[simp] theorem State.setPending_words (s : State) (p : List HostInput) : (s.setPending p).words = s.words := rfl
@[simp] theorem State.setPending_cur (s : State) (p : List HostInput) : (s.setPending p).cur = s.cur := rfl
@[simp] theorem State.setPending_hist (s : State) (p : List HostInput) : (s.setPending p).hist = s.hist := rfl
@[simp] theorem State.setPending_mode (s : State) (p : List HostInput) : (s.setPending p).mode = s.mode := rfl
@[simp] theorem State.setPending_faultBits (s : State) (p : List HostInput) : (s.setPending p).faultBits = s.faultBits := rfl
@[simp] theorem State.setPending_firstCause (s : State) (p : List HostInput) : (s.setPending p).firstCause = s.firstCause := rfl
@[simp] theorem State.setPending_cfg (s : State) (p : List HostInput) : (s.setPending p).cfg = s.cfg := rfl
@[simp] theorem State.setPending_pending (s : State) (p : List HostInput) : (s.setPending p).pending = p := rfl
@[simp] theorem State.setPending_rsp (s : State) (p : List HostInput) : (s.setPending p).rsp = s.rsp := rfl

@[simp] theorem recordFault_words (c : FaultCode) (s : State) :
    (recordFault c s).words = s.words := rfl
@[simp] theorem recordFault_cur (c : FaultCode) (s : State) :
    (recordFault c s).cur = s.cur := rfl
@[simp] theorem recordFault_hist (c : FaultCode) (s : State) :
    (recordFault c s).hist = s.hist := rfl
@[simp] theorem recordFault_mode (c : FaultCode) (s : State) :
    (recordFault c s).mode = s.mode := rfl
@[simp] theorem recordFault_faultBits (c : FaultCode) (s : State) :
    (recordFault c s).faultBits = setFaultBit c s.faultBits := rfl
@[simp] theorem recordFault_firstCause (c : FaultCode) (s : State) :
    (recordFault c s).firstCause = noteFirstCause c s.firstCause := rfl
@[simp] theorem recordFault_cfg (c : FaultCode) (s : State) :
    (recordFault c s).cfg = s.cfg := rfl
@[simp] theorem recordFault_pending (c : FaultCode) (s : State) :
    (recordFault c s).pending = s.pending := rfl
@[simp] theorem recordFault_rsp (c : FaultCode) (s : State) :
    (recordFault c s).rsp = some ⟨BitVec.ofNat 64 c.code, true⟩ := rfl

@[simp] theorem State.incCounter_words (s : State) (k : Nat) :
    (s.incCounter k).words = s.words := rfl
@[simp] theorem State.incCounter_cur (s : State) (k : Nat) :
    (s.incCounter k).cur = s.cur := rfl
@[simp] theorem State.incCounter_hist (s : State) (k : Nat) :
    (s.incCounter k).hist = histSet s.hist k (s.counter k + 1#64) := rfl
@[simp] theorem State.incCounter_mode (s : State) (k : Nat) :
    (s.incCounter k).mode = s.mode := rfl
@[simp] theorem State.incCounter_faultBits (s : State) (k : Nat) :
    (s.incCounter k).faultBits = s.faultBits := rfl
@[simp] theorem State.incCounter_firstCause (s : State) (k : Nat) :
    (s.incCounter k).firstCause = s.firstCause := rfl
@[simp] theorem State.incCounter_cfg (s : State) (k : Nat) :
    (s.incCounter k).cfg = s.cfg := rfl
@[simp] theorem State.incCounter_pending (s : State) (k : Nat) :
    (s.incCounter k).pending = s.pending := rfl
@[simp] theorem State.incCounter_rsp (s : State) (k : Nat) :
    (s.incCounter k).rsp = s.rsp := rfl

@[simp] theorem State.resetWith_words (cfg : Config) : (State.resetWith cfg).words = [3#64] := rfl
@[simp] theorem State.resetWith_cur (cfg : Config) : (State.resetWith cfg).cur = 0#64 := rfl
@[simp] theorem State.resetWith_hist (cfg : Config) : (State.resetWith cfg).hist = [] := rfl
@[simp] theorem State.resetWith_mode (cfg : Config) : (State.resetWith cfg).mode = .idle := rfl
@[simp] theorem State.resetWith_faultBits (cfg : Config) : (State.resetWith cfg).faultBits = 0#8 := rfl
@[simp] theorem State.resetWith_firstCause (cfg : Config) : (State.resetWith cfg).firstCause = 0#4 := rfl
@[simp] theorem State.resetWith_cfg (cfg : Config) : (State.resetWith cfg).cfg = cfg := rfl
@[simp] theorem State.resetWith_pending (cfg : Config) : (State.resetWith cfg).pending = [] := rfl
@[simp] theorem State.resetWith_rsp (cfg : Config) : (State.resetWith cfg).rsp = none := rfl

@[simp] theorem takeReset_words (s : State) : (takeReset s).words = [3#64] := rfl
@[simp] theorem takeReset_cur (s : State) : (takeReset s).cur = 0#64 := rfl
@[simp] theorem takeReset_hist (s : State) : (takeReset s).hist = [] := rfl
@[simp] theorem takeReset_mode (s : State) : (takeReset s).mode = .idle := rfl
@[simp] theorem takeReset_faultBits (s : State) : (takeReset s).faultBits = 0#8 := rfl
@[simp] theorem takeReset_firstCause (s : State) : (takeReset s).firstCause = 0#4 := rfl
@[simp] theorem takeReset_cfg (s : State) : (takeReset s).cfg = s.cfg := rfl
@[simp] theorem takeReset_pending (s : State) : (takeReset s).pending = s.pending := rfl
@[simp] theorem takeReset_rsp (s : State) : (takeReset s).rsp = none := rfl

end Sys2Proof.Machine
end

