-- ==== Sys2Proof/Laws/Ops.lean ====
section
/-! SUPPORT. What each shared operation does, said once: the counter write, ending a command, STATUS. -/

namespace Sys2Proof.Machine

/-- A number below 2^64 is whole in a 64-bit register. -/
theorem ofNat_toNat {n : Nat} (h : n < 2^64) : (BitVec.ofNat 64 n).toNat = n := by simp; omega

/-- D of a legal build (R6). -/
theorem wf_digits {c : Config} (h : c.wf = true) : 1 ≤ c.digits ∧ c.digits ≤ 63 := by
  simp [Config.wf, Config.digitsOk] at h; omega

/-- MAXW of a legal build (R6). -/
theorem wf_maxw {c : Config} (h : c.wf = true) : 1 ≤ c.maxw ∧ c.maxw ≤ 2^64-1 := by
  simp [Config.wf, Config.maxwOk] at h; omega

/-- Below the largest 64-bit value, as numbers. -/
theorem ne_maxWord_iff (v : Word) : v ≠ maxWord ↔ v.toNat < 2^64-1 := by
  rw [Ne, ← BitVec.toNat_inj]; simp [maxWord]; omega

/-- The largest 64-bit value, as a number. -/
theorem maxWord_iff (v : Word) : v = maxWord ↔ v.toNat = 2^64-1 := by
  rw [← BitVec.toNat_inj]; simp [maxWord]

/-- An increment of a value that is not the largest does not wrap. -/
theorem add_one_toNat {v : Word} (h : v ≠ maxWord) : (v + 1#64).toNat = v.toNat + 1 := by
  rw [ne_maxWord_iff] at h
  simp [BitVec.toNat_add]; omega

/-- An increment of a value that is not the largest is not 0, so the histogram keeps its entry. -/
theorem add_one_ne_zero {v : Word} (h : v ≠ maxWord) : v + 1#64 ≠ 0#64 := by
  intro h0
  have := add_one_toNat h
  rw [h0] at this; simp at this

/-- Reading a counter after a write that is not 0 gives the value written. -/
theorem histGet_histSet_self (h : List (Nat × Word)) (k : Nat) (v : Word) (hv : v ≠ 0#64) :
    histGet (histSet h k v) k = v := by
  induction h with
  | nil => simp [histSet, histGet, hv]
  | cons e rest ih =>
    obtain ⟨j, u⟩ := e
    simp only [histSet, hv, if_false]
    split
    · simp [histGet]
    · split
      · simp [histGet]
      · simp_all [histGet]

/-- A write leaves every other counter alone. -/
theorem histGet_histSet_other (h : List (Nat × Word)) (k j : Nat) (v : Word) (hv : v ≠ 0#64) (hjk : j ≠ k) :
    histGet (histSet h k v) j = histGet h j := by
  induction h with
  | nil => simp [histSet, histGet, hv, hjk]
  | cons e rest ih =>
    obtain ⟨i, u⟩ := e
    simp only [histSet, hv, if_false]
    split
    · simp only [histGet, hjk, if_false]
      split
      · rw [if_pos (by omega)]
      · rfl
    · split
      · subst k; simp [histGet, hjk]
      · simp [histGet, ih]

/-- A histogram that is canonical from an index on is canonical from any lower one. -/
theorem histWfFrom_mono {bins lo lo' : Nat} {h : List (Nat × Word)} (hl : lo' ≤ lo)
    (hw : histWfFrom bins lo h = true) : histWfFrom bins lo' h = true := by
  cases h with
  | nil => rfl
  | cons e rest =>
    simp only [histWfFrom, Bool.and_eq_true, decide_eq_true_eq] at hw ⊢
    exact ⟨⟨⟨by omega, hw.1.1.2⟩, hw.1.2⟩, hw.2⟩

/-- A counter write keeps the histogram canonical. -/
theorem histWfFrom_histSet {bins : Nat} (h : List (Nat × Word)) (lo k : Nat) (v : Word)
    (hk : k < bins) (hlo : lo ≤ k) (hw : histWfFrom bins lo h = true) :
    histWfFrom bins lo (histSet h k v) = true := by
  induction h generalizing lo with
  | nil => by_cases hv : v = 0#64 <;> simp [histSet, histWfFrom, hv, hk, hlo]
  | cons e rest ih =>
    obtain ⟨i, u⟩ := e
    simp only [histWfFrom, Bool.and_eq_true, decide_eq_true_eq] at hw
    obtain ⟨⟨⟨h1, h2⟩, h3⟩, h4⟩ := hw
    simp only [histSet]
    split
    · split <;> simp [histWfFrom, *]
    · split
      · subst k
        split
        · exact histWfFrom_mono (by omega) h4
        · simp [histWfFrom, *]
      · simp only [histWfFrom, Bool.and_eq_true, decide_eq_true_eq]
        exact ⟨⟨⟨h1, h2⟩, h3⟩, ih _ (by omega) h4⟩

/-- `Increment` keeps the histogram canonical, for a counter the build has. -/
theorem histWf_incCounter {s : State} {k : Nat} (hk : k < s.cfg.bins) (hw : histWf s.cfg.bins s.hist = true) :
    histWf s.cfg.bins (s.incCounter k).hist = true :=
  histWfFrom_histSet _ _ _ _ hk (Nat.zero_le _) hw

@[simp] theorem counter_setWords (s : State) (ws : List Word) (k : Nat) : (s.setWords ws).counter k = s.counter k := rfl
@[simp] theorem counter_setCur (s : State) (c : Word) (k : Nat) : (s.setCur c).counter k = s.counter k := rfl
@[simp] theorem counter_setMode (s : State) (m : Mode) (k : Nat) : (s.setMode m).counter k = s.counter k := rfl
@[simp] theorem counter_setRsp (s : State) (r : Response) (k : Nat) : (s.setRsp r).counter k = s.counter k := rfl
@[simp] theorem counter_setPending (s : State) (p : List HostInput) (k : Nat) :
    (s.setPending p).counter k = s.counter k := rfl
@[simp] theorem counter_recordFault (c : FaultCode) (s : State) (k : Nat) :
    (recordFault c s).counter k = s.counter k := rfl

/-- Everything `Increment` (R141) does, seen through the counters. -/
theorem counter_inc (s : State) (k j : Nat) (h : s.counter k ≠ maxWord) :
   ((s.incCounter k).counter j) = if j = k then s.counter k + 1#64 else s.counter j := by
  split
  · rename_i h1; subst h1; exact histGet_histSet_self _ _ _ (add_one_ne_zero h)
  · exact histGet_histSet_other _ _ _ _ (add_one_ne_zero h) (by assumption)

/-- The only state a success leads to. -/
theorem respond_eq {v : Word} {s t : State} (h : respond v s = .next t) : t = s.setRsp ⟨v, false⟩ := by
  simpa [respond, eq_comm] using h

/-- The only state a fault leads to. -/
theorem raise_eq {c : FaultCode} {s t : State} (h : raise c s = .next t) : t = recordFault c s := by
  simpa [raise, eq_comm] using h

/-- The codes of R201 are 1 to 8. -/
theorem code_bounds (c : FaultCode) : 1 ≤ c.code ∧ c.code ≤ 8 := by cases c <;> decide

/-- A success is never a fault. -/
theorem respond_ne {c : FaultCode} {v : Word} (s u : State) : respond v u ≠ raise c s := by
  intro hr; simp [raise, respond] at hr
  have := congrArg State.rsp hr
  simp at this

/-- Two different faults give two different states. -/
theorem raise_ne {c c' : FaultCode} (s : State) (h : c ≠ c') : raise c s ≠ raise c' s := by
  intro hr; simp [raise] at hr
  have := congrArg State.rsp hr
  rw [recordFault_rsp, recordFault_rsp] at this
  clear hr
  revert this; cases c <;> cases c' <;> first | exact absurd rfl h | decide

/-- There are two modes. -/
theorem mode_ne_idle {m : Mode} : m ≠ .idle ↔ m = .loading := by cases m <;> simp

/-- There are two modes. -/
theorem mode_ne_loading {m : Mode} : m ≠ .loading ↔ m = .idle := by cases m <;> simp

/-- A fault sets its own bit and no other (R203). -/
theorem setFaultBit_bit (c : FaultCode) (b : BitVec 8) (k : Nat) (hk : k < 8) :
    (setFaultBit c b).getLsbD k = (b.getLsbD k || decide (k = c.code - 1)) := by
  simp only [setFaultBit, BitVec.getLsbD_or]
  congr 1
  have : k = 0 ∨ k = 1 ∨ k = 2 ∨ k = 3 ∨ k = 4 ∨ k = 5 ∨ k = 6 ∨ k = 7 := by omega
  cases c <;> rcases this with rfl|rfl|rfl|rfl|rfl|rfl|rfl|rfl <;> decide

/-- The fault bits are not 0 exactly when one of the eight is set. -/
theorem faults_ne_zero (b : BitVec 8) : b ≠ 0#8 ↔ ∃ k, k < 8 ∧ b.getLsbD k = true := by
  constructor
  · intro h; by_contra hn; apply h; apply BitVec.eq_of_getLsbD_eq; intro i hi
    by_cases hb : b.getLsbD i = true
    · exact absurd ⟨i, hi, hb⟩ hn
    · simpa using hb
  · rintro ⟨k, hk, h⟩ rfl; simp at h

/-- After a fault some bit is set. -/
theorem setFaultBit_ne (c) (b : BitVec 8) : setFaultBit c b ≠ 0#8 := by
  rw [faults_ne_zero]
  have := code_bounds c
  exact ⟨c.code - 1, by omega, by rw [setFaultBit_bit _ _ _ (by omega)]; simp⟩

/-- STATUS bit by bit (R32). -/
theorem status_bit (s : State) (k : Nat) : s.status.getLsbD k =
    
    (if k < 8 then s.faultBits.getLsbD k else if k < 12 then s.firstCause.getLsbD (k - 8)
      else decide (k = 16) && loadingBit s.mode) := by
  simp only [State.status, BitVec.getLsbD_or, BitVec.getLsbD_setWidth, BitVec.getLsbD_shiftLeft, BitVec.getLsbD_ofBool]
  by_cases h8 : k < 8
  · have : k < 64 := by omega
    have : k < 16 := by omega
    simp [*]
  · have hf : s.faultBits.getLsbD k = false := BitVec.getLsbD_of_ge _ _ (by omega)
    by_cases h12 : k < 12
    · have : k < 64 := by omega
      have : k < 16 := by omega
      have : k - 8 < 64 := by omega
      simp [*]
    · have hf2 : s.firstCause.getLsbD (k-8) = false := BitVec.getLsbD_of_ge _ _ (by omega)
      by_cases h16 : k = 16
      · subst h16; simp [*]
      · by_cases h : k < 16
        · simp [*]
        · have : ¬ (k - 16 = 0) := by omega
          simp [*]

/-- STATUS[7:0]. -/
theorem status_faults (s : State) : s.status.extractLsb' 0 8 = s.faultBits := by
  apply BitVec.eq_of_getLsbD_eq
  intro i hi
  rw [BitVec.getLsbD_extractLsb', status_bit]; simp [hi]

/-- STATUS[11:8]. -/
theorem status_first (s : State) : s.status.extractLsb' 8 4 = s.firstCause := by
  apply BitVec.eq_of_getLsbD_eq
  intro i hi
  rw [BitVec.getLsbD_extractLsb', status_bit]; simp [hi]; omega

/-- A fault keeps STATUS legal (R34). -/
theorem recordFault_status {c s} (h : StatusLegal s) : StatusLegal (recordFault c s) := by
  obtain ⟨h1, h2, h3⟩ := h
  have hc := code_bounds c
  have h4 : (BitVec.ofNat 4 c.code).toNat = c.code := by simp; omega
  have h5 : BitVec.ofNat 4 c.code ≠ 0#4 := by intro h; rw [h] at h4; simp at h4; omega
  have h6 := setFaultBit_ne c s.faultBits
  unfold StatusLegal
  simp only [recordFault_firstCause, recordFault_faultBits, noteFirstCause]
  split
  · refine ⟨by omega, by simp [h5, h6], fun _ => ?_⟩
    rw [h4, setFaultBit_bit _ _ _ (by omega)]; simp
  · rename_i h0
    refine ⟨h1, by simp [h0, h6], fun _ => ?_⟩
    have := h3 h0
    have h7 : s.firstCause.toNat ≠ 0 := by intro h; apply h0; apply BitVec.eq_of_toNat_eq; simpa using h
    rw [setFaultBit_bit _ _ _ (by omega), this]; rfl

/-- A fault leaves a legal response (R203). -/
theorem recordFault_resp {c s} : ResponseLegal (recordFault c s) := by
  have hc := code_bounds c
  intro r hr _
  cases hr
  have : (BitVec.ofNat 64 c.code).toNat = c.code := ofNat_toNat (by omega)
  rw [this]
  refine ⟨hc.1, hc.2, ?_⟩
  rw [recordFault_faultBits, setFaultBit_bit _ _ _ (by omega)]; simp

end Sys2Proof.Machine
end

