-- ==== Sys2Proof/Laws/Advance.lean ====
section
/-! SUPPORT. What the advance does to the words and to the value (40_bigfraction_advance.md). -/

namespace Sys2Proof.Machine

/-- The marker bit is set exactly from 2^63 on. -/
theorem marker_iff (v : Word) : v.getLsbD 63 = decide (2 ^ 63 ≤ v.toNat) :=
  (BitVec.msb_eq_getLsbD_last v).symm.trans (BitVec.msb_eq_decide v)

/-- R73: the range of a word value. -/
theorem wordInRange_iff (v : Word) : wordInRange v = true ↔ v.toNat < 2^63 := by
  simp only [wordInRange, marker_iff]; simp

/-- 2^63 bit by bit. -/
theorem getLsbD_one_shl_63 (i : Nat) : ((1#64) <<< 63).getLsbD i = decide (i = 63) := by
  by_cases h : i = 63
  · subst h; decide
  · simp only [BitVec.getLsbD_shiftLeft, h, decide_false]
    by_cases h2 : i < 63
    · simp [h2]
    · simp; omega

/-- Clearing a set marker takes 2^63 away. -/
theorem clear_marker_add (v : Word) (h : v.getLsbD 63 = true) :
    (v ^^^ (1#64 <<< 63)) + (1#64 <<< 63) = v := by
  rw [BitVec.add_eq_or_of_and_eq_zero]
  · apply BitVec.eq_of_getLsbD_eq
    intro i hi
    simp only [BitVec.getLsbD_or, BitVec.getLsbD_xor, getLsbD_one_shl_63]
    by_cases h1 : i = 63 <;> simp_all
  · apply BitVec.eq_of_getLsbD_eq
    intro i hi
    simp only [BitVec.getLsbD_and, BitVec.getLsbD_xor, getLsbD_one_shl_63]
    by_cases h1 : i = 63 <;> simp_all

/-- Everything `splitMarker` does, as numbers: the flag is bit 63, the word is the rest. -/
theorem splitMarker_spec (v : Word) :
    v.toNat = (splitMarker v).1.toNat + 2^63 * (splitMarker v).2.toNat ∧ (splitMarker v).1.toNat < 2^63 := by
  unfold splitMarker
  by_cases h : v.getLsbD 63 = true
  · have hx := congrArg BitVec.toNat (clear_marker_add v h)
    rw [marker_iff] at h
    rw [BitVec.toNat_add] at hx
    rw [if_pos (by rw [marker_iff]; exact h)]
    have hm : (1#64 <<< 63).toNat = 2 ^ 63 := by decide
    rw [hm] at hx
    have hlt := (v ^^^ (1#64 <<< 63)).isLt
    rw [decide_eq_true_eq] at h
    change v.toNat = (v ^^^ (1#64 <<< 63)).toNat + 2 ^ 63 * 1 ∧ (v ^^^ (1#64 <<< 63)).toNat < 2 ^ 63
    omega
  · rw [if_neg h]
    rw [marker_iff] at h
    simp at h ⊢
    omega

/-- A flag as a number. -/
theorem flagWord_toNat (b : Bool) : (flagWord b).toNat = b.toNat := by cases b <;> rfl

/-- R103 for one word and the two flags that enter it: nothing is lost, and the new word is below 2^63. -/
theorem advanceWord_spec (w : Word) (s c : Bool) (h : w.toNat < 2^63) :
    3 * w.toNat + s.toNat + c.toNat =
      (advanceWord w s c).1.toNat + 2^63 * ((advanceWord w s c).2.1.toNat + (advanceWord w s c).2.2.toNat) ∧
    (advanceWord w s c).1.toNat < 2^63 := by
  have hd : ((w <<< 1) + flagWord s).toNat = 2 * w.toNat + s.toNat := by
    have := s.toNat_le
    simp [BitVec.toNat_add, BitVec.toNat_shiftLeft, flagWord_toNat, Nat.shiftLeft_eq]; omega
  have h1 := splitMarker_spec ((w <<< 1) + flagWord s)
  have hn : (w + (splitMarker ((w <<< 1) + flagWord s)).1 + flagWord c).toNat =
      w.toNat + (splitMarker ((w <<< 1) + flagWord s)).1.toNat + c.toNat := by
    have := c.toNat_le
    rw [BitVec.toNat_add, BitVec.toNat_add, flagWord_toNat]; omega
  have h2 := splitMarker_spec (w + (splitMarker ((w <<< 1) + flagWord s)).1 + flagWord c)
  simp only [advanceWord]
  omega

/-- R21 word by word. -/
theorem atRest_cons (w : Word) (ws : List Word) :
    atRest (w :: ws) = true ↔ w.toNat < 2^63 ∧ atRest ws = true := by
  simp only [atRest, List.all_cons, Bool.and_eq_true, wordInRange_iff]

/-- R21 as numbers. -/
theorem atRest_iff (ws : List Word) : atRest ws = true ↔ ∀ w ∈ ws, w.toNat < 2^63 := by
  simp only [atRest, List.all_eq_true, wordInRange_iff]

/-- The product law with the two flags that enter. -/
theorem advanceFrom_val (ws : List Word) (s c : Bool) (h : atRest ws = true) :
    val (advanceFrom ws s c) = 3 * val ws + s.toNat + c.toNat := by
  induction ws generalizing s c with
  | nil => cases s <;> cases c <;> decide
  | cons w ws ih =>
    rw [atRest_cons] at h
    have := advanceWord_spec w s c h.1
    simp only [advanceFrom, val, ih _ _ h.2, dataBits]
    omega

/-- The advance keeps R21. -/
theorem advanceFrom_atRest (ws : List Word) (s c : Bool) (h : atRest ws = true) :
    atRest (advanceFrom ws s c) = true := by
  induction ws generalizing s c with
  | nil => cases s <;> cases c <;> decide
  | cons w ws ih =>
    rw [atRest_cons] at h
    simp only [advanceFrom, atRest_cons]
    exact ⟨(advanceWord_spec w s c h.1).2, ih _ _ h.2⟩

/-- The advance keeps the word count, or appends 1 or 2. -/
theorem advanceFrom_cases (ws : List Word) (s c : Bool) :
    (advanceFrom ws s c).length = ws.length ∨
    ∃ x, (advanceFrom ws s c).length = ws.length + 1 ∧
      (advanceFrom ws s c).getLast? = some x ∧ (x = 1#64 ∨ x = 2#64) := by
  induction ws generalizing s c with
  | nil => cases s <;> cases c <;> simp [advanceFrom, flagWord]
  | cons w ws ih =>
    simp only [advanceFrom, List.length_cons]
    rcases ih (advanceWord w s c).2.1 (advanceWord w s c).2.2 with h | ⟨x, h, h2, h3⟩
    · left; omega
    · right; refine ⟨x, by omega, ?_, h3⟩
      rw [List.getLast?_cons, h2]; rfl

/-- The advance adds at most one word. -/
theorem advance_len (ws : List Word) : (advance ws).length = ws.length ∨ (advance ws).length = ws.length + 1 := by
  rcases advanceFrom_cases ws false false with h | ⟨x, h, -⟩
  · exact .inl h
  · exact .inr h

/-- A top word of 0 absorbs the last flags. -/
theorem advance_length_append_zero (ws : List Word) (s c : Bool) (h : atRest ws = true) :
    (advanceFrom (ws ++ [0#64]) s c).length = ws.length + 1 := by
  induction ws generalizing s c with
  | nil => cases s <;> cases c <;> decide
  | cons w ws ih => rw [atRest_cons] at h; simp [advanceFrom, ih _ _ h.2]

/-- The value of n words is below 2^(63 n). -/
theorem val_lt (ws : List Word) (h : atRest ws = true) : val ws < 2 ^ (63 * ws.length) := by
  induction ws with
  | nil => exact Nat.one_pos
  | cons w ws ih =>
    rw [atRest_cons] at h
    have := ih h.2
    simp only [val, dataBits, List.length_cons, Nat.mul_add, Nat.mul_one, Nat.pow_add]
    nlinarith

/-- The value of two word sequences one above the other. -/
theorem val_append (as bs : List Word) : val (as ++ bs) = val as + 2 ^ (63 * as.length) * val bs := by
  induction as with
  | nil => rw [List.nil_append, List.length_nil, Nat.mul_zero, pow_zero, one_mul, val, zero_add]
  | cons a as ih =>
    simp only [List.cons_append, val, ih, dataBits, List.length_cons, Nat.mul_add, Nat.mul_one, Nat.pow_add]
    ring

/-- A top word that is not 0 bounds the value from below. -/
theorem val_top (ws : List Word) (w : Word) (h : ws.getLast? = some w) (hw : w ≠ 0) :
    2 ^ (63 * (ws.length - 1)) ≤ val ws := by
  have hsplit := List.dropLast_append_getLast? w h
  rw [← hsplit, val_append]
  have : 1 ≤ w.toNat := by
    by_contra hn; apply hw; apply BitVec.eq_of_toNat_eq; simp; omega
  simp only [List.length_append, List.length_cons, List.length_nil, Nat.add_sub_cancel, val, dataBits,
    Nat.zero_add, Nat.mul_zero, Nat.add_zero]
  exact le_trans (Nat.le_mul_of_pos_right _ this) (Nat.le_add_left _ _)

end Sys2Proof.Machine
end

