-- ==== Sys2Proof/Laws/Exec.lean ====
section
/-! SUPPORT. Everything a command can do and everything a step can do, said once; later proofs cite these and do not
unfold the meanings. -/

namespace Sys2Proof.Machine

/-- Everything a command can do: raise one fault, be refused outside R21, or succeed, with what success needed. -/
inductive Effect : Instr → State → Result → Prop
  | raised (i s c) : c ≠ .illegalCmd → Effect i s (raise c s)
  | refused (i s) : (i = .adv ∨ i = .step) → s.mode = .idle → atRest s.words = false →
      Effect i s (.refused .markerSet)
  | nop (s) : Effect .nop s (respond 0#64 s)
  | adv (s) : s.mode = .idle → atRest s.words = true → (advance s.words).length ≤ s.cfg.maxw →
      Effect .adv s (respond (countWord (advance s.words).length) (s.setWords (advance s.words)))
  | bin (s n) : s.mode = .idle → Effect (.bin n) s (respond (binValue s.cfg.digits s.words n) s)
  | hinc (s k) : s.mode = .idle → k.toNat < s.cfg.bins → s.counter k.toNat ≠ maxWord →
      Effect (.hinc k) s (respond (s.counter k.toNat + 1#64) (s.incCounter k.toNat))
  | step (s) : s.mode = .idle → atRest s.words = true → (advance s.words).length ≤ s.cfg.maxw →
      s.counter (iterationBin s).toNat ≠ maxWord → s.cur ≠ maxWord →
      Effect .step s (respond (iterationBin s) s.iterate)
  | ldbeg (s c) : Effect (.ldbeg c) s (respond 0#64 (((s.setCur c).setWords []).setMode .loading))
  | ldword (s v) : s.mode = .loading → wordInRange v = true → s.words.length ≠ s.cfg.maxw →
      Effect (.ldword v) s (respond (countWord (s.words.length + 1)) (s.setWords (s.words ++ [v])))
  | ldend (s) : s.mode = .loading →
      Effect .ldend s (respond (countWord (seedIfEmpty s.words).length)
        ((s.setWords (seedIfEmpty s.words)).setMode .idle))
  | rdcur (s) : Effect .rdcur s (respond s.cur s)
  | rdnw (s) : Effect .rdnw s (respond s.nw s)
  | rdword (s i w) : s.words[i.toNat]? = some w → Effect (.rdword i) s (respond w s)
  | rdhist (s k) : k.toNat < s.cfg.bins → Effect (.rdhist k) s (respond (s.counter k.toNat) s)
  | rdstat (s) : Effect .rdstat s (respond s.status s)
  | rdcfg (s j v) : configAt s.cfg j = some v → Effect (.rdcfg j) s (respond v s)

/-- Every command does one of these. -/
theorem exec_effect (i : Instr) (s : State) : Effect i s (exec i s) := by
  cases i <;> simp only [exec]
  · exact .nop s
  · unfold execAdv
    split
    · exact .raised _ _ _ (by decide)
    · split
      · exact .refused _ _ (.inl rfl) (by simp_all) (by simp_all)
      · split
        · exact .raised _ _ _ (by decide)
        · exact .adv _ (by simp_all) (by simp_all) (by omega)
  · unfold execBin
    split
    · exact .raised _ _ _ (by decide)
    · exact .bin _ _ (by simp_all)
  · unfold execHinc
    split
    · exact .raised _ _ _ (by decide)
    · split
      · exact .raised _ _ _ (by decide)
      · split
        · exact .raised _ _ _ (by decide)
        · exact .hinc _ _ (by simp_all) (by simp_all [binInRange]) (by assumption)
  · unfold execStep
    split
    · exact .raised _ _ _ (by decide)
    · split
      · exact .refused _ _ (.inr rfl) (by simp_all) (by simp_all)
      · split
        · exact .raised _ _ _ (by decide)
        · split
          · exact .raised _ _ _ (by decide)
          · split
            · exact .raised _ _ _ (by decide)
            · exact .step _ (by simp_all) (by simp_all) (by omega) (by assumption) (by assumption)
  · exact .ldbeg _ _
  · unfold execLdword
    split
    · exact .raised _ _ _ (by decide)
    · split
      · exact .raised _ _ _ (by decide)
      · split
        · exact .raised _ _ _ (by decide)
        · exact .ldword _ _ (by simp_all) (by simp_all) (by assumption)
  · unfold execLdend
    split
    · exact .raised _ _ _ (by decide)
    · exact .ldend _ (by simp_all)
  · exact .rdcur _
  · exact .rdnw _
  · unfold execRdword
    split
    · exact .raised _ _ _ (by decide)
    · exact .rdword _ _ _ (by simpa [wordAt] using ‹_›)
  · unfold execRdhist
    split
    · exact .raised _ _ _ (by decide)
    · exact .rdhist _ _ (by simp_all [binInRange])
  · exact .rdstat _
  · unfold execRdcfg
    split
    · exact .raised _ _ _ (by decide)
    · exact .rdcfg _ _ _ (by assumption)

/-- Everything a step can do. -/
theorem step_cases {s t : State} (h : step s = .next t) : s.cfg.wf = true ∧
    ((s.pending = [] ∧ t = s) ∨
     (∃ c rest, s.pending = .command c :: rest ∧
       ((∃ i, decode c = .command i ∧ exec i (s.setPending rest) = .next t) ∨
        ((∃ w, decode c = .illegal w) ∧ t = recordFault .illegalCmd (s.setPending rest)))) ∨
     (∃ x rest, s.pending = x :: rest ∧ isReset x = true ∧ t = takeReset (s.setPending rest))) := by
  unfold step at h
  split at h
  · rename_i hc
    refine ⟨hc, ?_⟩
    split at h
    · left; rename_i hp; cases h; exact ⟨hp, rfl⟩
    · rename_i x rest hp
      cases x with
      | command c =>
        right; left
        refine ⟨c, rest, hp, ?_⟩
        simp only [takeInput, runCommand] at h
        split at h
        · rename_i i hi; exact .inl ⟨i, hi, h⟩
        · rename_i w hw; exact .inr ⟨⟨w, hw⟩, raise_eq h⟩
      | reset => right; right; cases h; exact ⟨_, _, hp, rfl, rfl⟩
      | resetDuring c => right; right; cases h; exact ⟨_, _, hp, rfl, rfl⟩
  · cases h

/-- A reset in front of the host's inputs is taken. -/
theorem step_reset {s : State} {x rest} (hc : s.cfg.wf = true) (hp : s.pending = x :: rest) (hx : isReset x = true) :
    step s = .next (takeReset (s.setPending rest)) := by
  unfold step; rw [if_pos hc, hp]; cases x <;> first | rfl | cases hx

/-- No command changes the build or the host's remaining inputs. -/
theorem exec_cfg {i s t} (h : exec i s = .next t) : t.cfg = s.cfg ∧ t.pending = s.pending := by
  have hd := exec_effect i s
  rw [h] at hd
  generalize hr : (Host.Outcome.next t : Result) = r at hd
  cases hd
  case raised c hc => cases raise_eq hr.symm; exact ⟨rfl, rfl⟩
  case refused => cases hr
  all_goals (cases respond_eq hr.symm; exact ⟨rfl, rfl⟩)

/-- STATUS after a command: unchanged by a success, recorded by a fault. -/
theorem exec_flags {i : Instr} {s t : State} (h : exec i s = .next t) :
    (t.faultBits = s.faultBits ∧ t.firstCause = s.firstCause ∧ ∃ d, t.rsp = some ⟨d, false⟩) ∨
      ∃ c, t = recordFault c s := by
  have hd := exec_effect i s
  rw [h] at hd
  generalize hr : (Host.Outcome.next t : Result) = r at hd
  cases hd
  case raised c hc => cases raise_eq hr.symm; exact .inr ⟨c, rfl⟩
  case refused => cases hr
  all_goals (cases respond_eq hr.symm; exact .inl ⟨rfl, rfl, _, rfl⟩)

/-- A machine given commands takes the first of them. -/
theorem given_step {s : State} {i : Instr} {is : List Instr} (hc : s.cfg.wf = true) :
    step (s.given (i :: is)) = exec i (s.given is) := by
  unfold step
  rw [if_pos (show (s.given (i::is)).cfg.wf = true from hc)]
  have : decode (encode i) = .command i := by
    cases i <;> first | rfl | simp [decode, decodeOp, rsvField, opField, encode, opcodeOf, operandOf]
  simp only [State.given, issue, List.map_cons, State.setPending_pending, takeInput, runCommand, this]; rfl

end Sys2Proof.Machine
end

