-- ==== Sys2Proof/Laws/Extract.lean ====
section
/-! SUPPORT. What the extractor reads (41_bin_extract.md), bit by bit. -/

namespace Sys2Proof.Machine

/-- The lowest word. -/
theorem wordOrZero_cons_zero (w : Word) (ws : List Word) : wordOrZero (w :: ws) 0 = w := rfl

/-- The words above it. -/
theorem wordOrZero_cons_succ (w : Word) (ws : List Word) (j : Nat) :
    wordOrZero (w :: ws) (j + 1) = wordOrZero ws j := by simp [wordOrZero, wordAt]

/-- Above the store every word reads 0 (R123). -/
theorem wordOrZero_nil (j : Nat) : wordOrZero [] j = 0#64 := by simp [wordOrZero, wordAt]

/-- R21 for the extractor's reads. -/
theorem wordOrZero_rest (ws : List Word) (h : atRest ws = true) (j : Nat) : (wordOrZero ws j).toNat < 2^63 := by
  induction ws generalizing j with
  | nil => simp [wordOrZero_nil]
  | cons w ws ih =>
    rw [atRest_cons] at h
    cases j with
    | zero => exact h.1
    | succ j => rw [wordOrZero_cons_succ]; exact ih h.2 j

/-- R14: bit p of the value is bit p % 63 of word p / 63. -/
theorem val_testBit (ws : List Word) (h : atRest ws = true) (p : Nat) :
    (val ws).testBit p = (wordOrZero ws (p / 63)).getLsbD (p % 63) := by
  induction ws generalizing p with
  | nil => simp [val, wordOrZero_nil]
  | cons w ws ih =>
    rw [atRest_cons] at h
    rw [val, dataBits, Nat.add_comm, Nat.testBit_two_pow_mul_add _ h.1]
    by_cases hp : p < 63
    · rw [if_pos hp, Nat.div_eq_of_lt hp, Nat.mod_eq_of_lt hp]; rfl
    · obtain ⟨q, rfl⟩ : ∃ q, p = q + 63 := ⟨p - 63, by omega⟩
      rw [if_neg hp, Nat.add_div_right _ (by norm_num), Nat.add_mod_right, wordOrZero_cons_succ, ← ih h.2]
      simp

/-- The mask of R121 bit by bit. -/
theorem windowMask_bit (d i : Nat) : (windowMask d).getLsbD i = (decide (i < 64) && decide (i < d)) := by
  simp [windowMask, BitVec.getLsbD_ofNat, Nat.testBit_two_pow_sub_one]

/-- The window bit by bit: bit i is bit n + i - (D - 1) of the value. -/
theorem binValue_bit (d : Nat) (ws : List Word) (n : Word) (hd : 1 ≤ d) (hd' : d ≤ 63)
    (h : atRest ws = true) (i : Nat) : (binValue d ws n).getLsbD i =
      (decide (i < d) && decide (d - 1 ≤ n.toNat + i) && (val ws).testBit (n.toNat + i - (d - 1))) := by
  rw [val_testBit ws h]
  have hbit63 : ∀ j, (wordOrZero ws j).getLsbD 63 = false := by
    intro j; rw [marker_iff]; have := wordOrZero_rest ws h j; simp; omega
  have hbig : ∀ j k, 63 ≤ k → (wordOrZero ws j).getLsbD k = false := by
    intro j k hk
    by_cases h1 : k = 63
    · rw [h1]; exact hbit63 j
    · exact BitVec.getLsbD_of_ge _ _ (by omega)
  have hb : bitNum n < 63 := Nat.mod_lt _ (by norm_num [dataBits])
  have hn : n.toNat = 63 * wordNum n + bitNum n := (Nat.div_add_mod _ _).symm
  unfold binValue
  dsimp only
  split
  · rename_i hs
    obtain ⟨sh, hsh⟩ : ∃ sh : Nat, (bitNum n : Int) - ((d : Int) - 1) = sh := ⟨_, (Int.toNat_of_nonneg hs).symm⟩
    rw [hsh, Int.toNat_natCast]
    have hbsh : bitNum n = sh + (d - 1) := by omega
    simp only [windowInWord, BitVec.getLsbD_ushiftRight, BitVec.getLsbD_and, BitVec.getLsbD_shiftLeft, windowMask_bit]
    by_cases hi : i < d
    · have e1 : (n.toNat + i - (d - 1)) / 63 = wordNum n := by omega
      have e2 : (n.toNat + i - (d - 1)) % 63 = sh + i := by omega
      rw [e1, e2]
      have a1 : sh + i < 64 := by omega
      have a2 : d - 1 ≤ n.toNat + i := by omega
      have a3 : ¬ sh + i < sh := by omega
      have a4 : sh + i - sh = i := by omega
      have a5 : i < 64 := by omega
      simp only [a1, a2, a3, a4, a5, hi, decide_true, decide_false, Bool.true_and, Bool.and_true, Bool.not_false]
    · simp [hi]
  · rename_i hs
    obtain ⟨k, hk⟩ : ∃ k : Nat, -((bitNum n : Int) - ((d : Int) - 1)) = k := ⟨_, (Int.toNat_of_nonneg (by omega)).symm⟩
    rw [hk, Int.toNat_natCast]
    have hbk : bitNum n + k = d - 1 := by omega
    simp only [BitVec.getLsbD_or, windowHigh, BitVec.getLsbD_and, BitVec.getLsbD_shiftLeft, windowMask_bit]
    by_cases hi : i < d
    · by_cases hik : k ≤ i
      · have e1 : (n.toNat + i - (d - 1)) / 63 = wordNum n := by omega
        have e2 : (n.toNat + i - (d - 1)) % 63 = i - k := by omega
        rw [e1, e2]
        have hlo : (if wordNum n = 0 then 0#64 else windowLow d (wordOrZero ws (wordNum n - 1)) k).getLsbD i = false := by
          split
          · simp
          · simp only [windowLow, BitVec.getLsbD_ushiftRight, BitVec.getLsbD_and]
            rw [hbig _ _ (by omega)]; rfl
        rw [hlo]
        have a1 : i < 64 := by omega
        have a2 : ¬ i < k := by omega
        have a3 : d - 1 ≤ n.toNat + i := by omega
        simp only [a1, a2, a3, hi, decide_true, decide_false, Bool.true_and, Bool.and_true, Bool.not_false, Bool.or_false]
      · have hik' : i < k := by omega
        by_cases hw : wordNum n = 0
        · have a3 : ¬ d - 1 ≤ n.toNat + i := by omega
          simp only [hw, hik', a3, if_true, decide_true, decide_false, BitVec.getLsbD_zero, Bool.not_true, Bool.and_false, Bool.false_and, Bool.or_false]
        · have e1 : (n.toNat + i - (d - 1)) / 63 = wordNum n - 1 := by omega
          have e2 : (n.toNat + i - (d - 1)) % 63 = 63 - k + i := by omega
          rw [e1, e2]
          have a1 : 63 - k + i < 64 := by omega
          have a2 : d - 1 ≤ n.toNat + i := by omega
          have a3 : ¬ 63 - k + i < 63 - k := by omega
          have a4 : 63 - k + i - (63 - k) = i := by omega
          have a5 : i < 64 := by omega
          simp only [windowLow, BitVec.getLsbD_ushiftRight, BitVec.getLsbD_and, BitVec.getLsbD_shiftLeft, windowMask_bit, hw, hik', a1, a2, a3, a4, a5, hi,
            if_false, decide_true, decide_false, Bool.not_true, Bool.not_false, Bool.and_false, Bool.false_and, Bool.false_or, Bool.true_and, Bool.and_true]
    · have hlo : (if wordNum n = 0 then 0#64 else windowLow d (wordOrZero ws (wordNum n - 1)) k).getLsbD i = false := by
          split
          · simp
          · simp only [windowLow, BitVec.getLsbD_ushiftRight, BitVec.getLsbD_and]
            rw [hbig _ _ (by omega)]; rfl
      rw [hlo]; simp [hi]

end Sys2Proof.Machine
end

