-- ==== Sys2Proof/Laws/PerInstr.lean ====
section
/-! SUPPORT. Statements for all fourteen commands, one lemma per constructor of `Instr`. -/

namespace Sys2Proof.Laws.RoundTrip

/-- Decoding the command's transaction gives the command back. -/
def Statement : Instr → Prop := fun i => decode (encode i) = .command i

theorem nop : Statement .nop := rfl

theorem adv : Statement .adv := rfl

theorem bin (n : Word) : Statement (.bin n) := by
  simp [Statement, decode, decodeOp, rsvField, opField, encode, opcodeOf, operandOf]

theorem hinc (k : Word) : Statement (.hinc k) := by
  simp [Statement, decode, decodeOp, rsvField, opField, encode, opcodeOf, operandOf]

theorem step : Statement .step := rfl

theorem ldbeg (c : Word) : Statement (.ldbeg c) := by
  simp [Statement, decode, decodeOp, rsvField, opField, encode, opcodeOf, operandOf]

theorem ldword (v : Word) : Statement (.ldword v) := by
  simp [Statement, decode, decodeOp, rsvField, opField, encode, opcodeOf, operandOf]

theorem ldend : Statement .ldend := rfl

theorem rdcur : Statement .rdcur := rfl

theorem rdnw : Statement .rdnw := rfl

theorem rdword (i : Word) : Statement (.rdword i) := by
  simp [Statement, decode, decodeOp, rsvField, opField, encode, opcodeOf, operandOf]

theorem rdhist (k : Word) : Statement (.rdhist k) := by
  simp [Statement, decode, decodeOp, rsvField, opField, encode, opcodeOf, operandOf]

theorem rdstat : Statement .rdstat := rfl

theorem rdcfg (j : Word) : Statement (.rdcfg j) := by
  simp [Statement, decode, decodeOp, rsvField, opField, encode, opcodeOf, operandOf]

end Sys2Proof.Laws.RoundTrip
end

