-- ==== Sys2Proof/Tests/Slice0.lean ====
section
/-! SUPPORT. The model's own tests. Expected values are the spec's: 95_test_vectors.md names the vector, and command
words are written out from 30_encoding.md rule R72. Each `witness_<Name>` shows, clause by clause, a state and operands
that meet the hypotheses of the statement of that name; it proves nothing of the statement. -/

namespace Sys2Proof.Tests

open Sys2Proof Sys2Proof.Machine

/-! ## Helpers -/

/-- The reset state of a build. -/
def built (digits maxw : Nat) : State := State.resetWith ⟨digits, maxw⟩

/-- The default window with a small store, holding these words. -/
def holding (maxw : Nat) (ws : List Word) : State := (built 10 maxw).setWords ws

/-- A load in progress, with these words loaded. -/
def loadingWith (c : Word) (maxw : Nat) (ws : List Word) : State := ((holding maxw ws).setCur c).setMode .loading

/-- The state a result goes on with. -/
def after : Result → Option State
  | .next s => some s
  | .fault _ => none
  | .refused _ => none

/-- The response, STATUS and words a result leaves. -/
def shows (r : Result) : Option (Option Response × Word × List Word) :=
  (after r).map (fun s => (s.rsp, s.status, s.words))

/-- What a run shows. -/
structure Seen where
  rsp : Option Response
  cur : Word
  words : List Word
  hist : List (Nat × Word)
deriving DecidableEq

/-- The response, cursor, words and non-zero counters a result leaves. -/
def showsRun (r : Result) : Option Seen := (after r).map (fun s => ⟨s.rsp, s.cur, s.words, s.hist⟩)

/-! ## Decoding, by the CMD column of R72 -/

theorem test_decode_compute :
    decode ⟨0b0000000000000001#16, 7#64⟩ = .command .adv ∧
    decode ⟨0b0000000000000010#16, 7#64⟩ = .command (.bin 7#64) ∧
    decode ⟨0b0000000000000011#16, 7#64⟩ = .command (.hinc 7#64) ∧
    decode ⟨0b0000000000000100#16, 7#64⟩ = .command .step := by decide

theorem test_decode_load :
    decode ⟨0b0000000000010000#16, 7#64⟩ = .command (.ldbeg 7#64) ∧
    decode ⟨0b0000000000010001#16, 7#64⟩ = .command (.ldword 7#64) ∧
    decode ⟨0b0000000000010010#16, 7#64⟩ = .command .ldend := by decide

theorem test_decode_read :
    decode ⟨0b0000000000100000#16, 7#64⟩ = .command .rdcur ∧
    decode ⟨0b0000000000100001#16, 7#64⟩ = .command .rdnw ∧
    decode ⟨0b0000000000100010#16, 7#64⟩ = .command (.rdword 7#64) ∧
    decode ⟨0b0000000000100011#16, 7#64⟩ = .command (.rdhist 7#64) := by decide

theorem test_decode_control :
    decode ⟨0b0000000000000000#16, 7#64⟩ = .command .nop ∧
    decode ⟨0b0000000000110000#16, 7#64⟩ = .command .rdstat ∧
    decode ⟨0b0000000000110001#16, 7#64⟩ = .command (.rdcfg 7#64) := by decide

/-- ENC-1 to ENC-6. -/
theorem test_decode_rejects :
    [0x0005#16, 0x000F#16, 0x0013#16, 0x001F#16, 0x0024#16, 0x002F#16, 0x0032#16, 0x00FF#16].map
      (fun c => decode ⟨c, 0#64⟩) = List.replicate 8 (.illegal .unassignedOp) ∧
    [0x0100#16, 0x0104#16, 0x0111#16, 0xFFFF#16].map (fun c => decode ⟨c, 0#64⟩) =
      List.replicate 4 (.illegal .reservedByte) := by decide

/-- The opcode table's numbering: CMD in bits 15..0, the operand above it. -/
theorem test_decode_table_word :
    decodeTableWord 16 0x0004 = some .step ∧ decodeTableWord 16 0x0011 = some (.ldword 0#64) ∧
    decodeTableWord 80 0x70002 = some (.bin 7#64) ∧ decodeTableWord 16 0x0104 = none := by decide

/-! ## What may be built and written -/

theorem test_wf_rejects_no_window : Config.digitsOk ⟨0, 4⟩ = false := by decide
theorem test_wf_rejects_wide_window : Config.digitsOk ⟨64, 4⟩ = false := by decide
theorem test_wf_rejects_no_store : Config.maxwOk ⟨10, 0⟩ = false := by decide
theorem test_wf_rejects_wide_store : Config.maxwOk ⟨10, 2 ^ 64⟩ = false := by simp [Config.maxwOk]
theorem test_wf_accepts_the_ends :
    Config.wf ⟨1, 1⟩ = true ∧ Config.wf ⟨63, 2 ^ 64 - 1⟩ = true ∧ Config.wf Config.default = true := by decide
theorem test_wf_rejects_unknown_mnemonic : AsmLine.wf ⟨"mul", none⟩ = false := by decide
theorem test_wf_rejects_missing_operand : AsmLine.wf ⟨"bin", none⟩ = false := by decide
theorem test_wf_rejects_extra_operand : AsmLine.wf ⟨"step", some 1⟩ = false := by decide
theorem test_wf_rejects_wide_operand :
    AsmLine.wf ⟨"ldword", some 18446744073709551616⟩ = false ∧
    AsmLine.wf ⟨"ldword", some 18446744073709551615⟩ = true := by decide

/-- R78, with the listings of P3 and P5. -/
theorem test_assemble :
    assembleText "bin 0x42 ; the window at bit 66" = some [⟨0x0002#16, 66#64⟩] ∧
    assembleText "ldbeg 38" = some [⟨0x0010#16, 38#64⟩] ∧ assembleText "step" = some [⟨0x0004#16, 0#64⟩] ∧
    assembleText "; nothing" = some [] ∧ assembleText "bin" = none ∧ assembleText "adv 1" = none := by decide
theorem test_listing :
    listing (.ldword 4052555153018976267#64) = "CMD=0x0011 OPA=0x383D9170B85FF80B" ∧
    listing .rdnw = "CMD=0x0021 OPA=0x0" := by decide

/-! ## One step of each command -/

/-- CTL-1 and ENC-7. -/
theorem test_nop : shows (exec .nop State.reset) = some (some ⟨0#64, false⟩, 0#64, [3#64]) := by decide
/-- ENC-4. -/
theorem test_illegal_word :
    shows (runCommand ⟨0x0104#16, 0#64⟩ State.reset) = some (some ⟨1#64, true⟩, 0x101#64, [3#64]) := by decide

/-- ADV-1 to ADV-12. -/
theorem test_advance :
    advance [3#64] = [9#64] ∧ advance [0#64] = [0#64] ∧
    advance [4611686018427387904#64] = [4611686018427387904#64, 1#64] ∧
    advance [9223372036854775807#64, 9223372036854775807#64] =
      [9223372036854775805#64, 9223372036854775807#64, 2#64] ∧
    advance [9223372036854775807#64, 0#64] = [9223372036854775805#64, 2#64] ∧
    advance [3074457345618258603#64] = [1#64, 1#64] ∧
    advance [4611686018427387904#64, 4611686018427387904#64] =
      [4611686018427387904#64, 4611686018427387905#64, 1#64] ∧
    advance [2934293422202152993#64, 1#64] = [8802880266606458979#64, 3#64] := by decide
/-- ADV-F1 (P6). -/
theorem test_adv_capacity : shows (exec .adv (holding 1 [4611686018427387904#64])) =
    some (some ⟨6#64, true⟩, 0x620#64, [4611686018427387904#64]) := by decide

/-- BIN-1, BIN-6 to BIN-13 and BIN-17. -/
theorem test_window_default_width :
    binValue 10 [3#64] 0#64 = 512#64 ∧ binValue 10 [59049#64] 20#64 = 28#64 ∧
    binValue 10 [9223372036854775807#64, 0#64] 63#64 = 511#64 ∧ binValue 10 [0#64, 1#64] 63#64 = 512#64 ∧
    binValue 10 [9223372036854775807#64, 5#64] 71#64 = 11#64 ∧
    binValue 10 [5209024094856408859#64, 10051580135491#64] 66#64 = 228#64 ∧
    binValue 10 [3#64] 0xFFFFFFFFFFFFFFFF#64 = 0#64 := by decide
/-- BIN-19, BIN-20 (D = 1) and BIN-21 to BIN-27 (D = 63). -/
theorem test_window_extreme_width :
    binValue 1 [3#64] 1#64 = 1#64 ∧ binValue 1 [3#64] 2#64 = 0#64 ∧
    binValue 63 [9223372036854775807#64, 9223372036854775807#64] 0#64 = 4611686018427387904#64 ∧
    binValue 63 [9223372036854775807#64, 9223372036854775807#64] 63#64 = 9223372036854775807#64 ∧
    binValue 63 [9223372036854775807#64, 9223372036854775807#64] 126#64 = 4611686018427387903#64 ∧
    binValue 63 [27#64] 1#64 = 6917529027641081856#64 := by decide

/-- HINC-3 and HINC-2. -/
theorem test_hinc :
    showsRun (exec (.hinc 1023#64) State.reset) = some ⟨some ⟨1#64, false⟩, 0#64, [3#64], [(1023, 1#64)]⟩ ∧
    showsRun (exec (.hinc 5#64) (State.reset.setHist [(5, 1#64)])) =
      some ⟨some ⟨2#64, false⟩, 0#64, [3#64], [(5, 2#64)]⟩ := by decide
/-- HINC-4 and HINC-6. -/
theorem test_hinc_faults :
    shows (exec (.hinc 1024#64) State.reset) = some (some ⟨3#64, true⟩, 0x304#64, [3#64]) ∧
    shows (exec (.hinc 40#64) (State.reset.setHist [(40, 0xFFFFFFFFFFFFFFFF#64)])) =
      some (some ⟨7#64, true⟩, 0x740#64, [3#64]) := by decide
/-- RDHIST-1, RDHIST-2. -/
theorem test_rdhist :
    shows (exec (.rdhist 1023#64) State.reset) = some (some ⟨0#64, false⟩, 0#64, [3#64]) ∧
    shows (exec (.rdhist 1024#64) State.reset) = some (some ⟨4#64, true⟩, 0x408#64, [3#64]) := by decide

/-- STEP-1 and the first STEP of P3. -/
theorem test_step :
    showsRun (exec .step State.reset) = some ⟨some ⟨512#64, false⟩, 1#64, [9#64], [(512, 1#64)]⟩ ∧
    showsRun (exec .step ((holding 3 [4052555153018976267#64]).setCur 38#64)) =
      some ⟨some ⟨901#64, false⟩, 39#64, [2934293422202152993#64, 1#64], [(901, 1#64)]⟩ := by decide
/-- STEP-6, STEP-9 and STEP-10. -/
theorem test_step_faults :
    shows (exec .step (State.reset.setCur 0xFFFFFFFFFFFFFFFF#64)) = some (some ⟨8#64, true⟩, 0x880#64, [3#64]) ∧
    shows (exec .step ((holding 1 [4611686018427387904#64]).setHist [(0, 0xFFFFFFFFFFFFFFFF#64)])) =
      some (some ⟨6#64, true⟩, 0x620#64, [4611686018427387904#64]) ∧
    shows (exec .step (State.reset.setHist [(512, 0xFFFFFFFFFFFFFFFF#64)])) =
      some (some ⟨7#64, true⟩, 0x740#64, [3#64]) := by decide

/-- LD-1. -/
theorem test_ldbeg : shows (exec (.ldbeg 3#64) State.reset) = some (some ⟨0#64, false⟩, 0x10000#64, []) := by decide
/-- LD-5 and LD-8. -/
theorem test_ldword :
    shows (exec (.ldword 81#64) (loadingWith 3#64 3 [])) = some (some ⟨1#64, false⟩, 0x10000#64, [81#64]) ∧
    shows (exec (.ldword 0x8000000000000000#64) (loadingWith 3#64 3 [])) =
      some (some ⟨5#64, true⟩, 0x10510#64, []) := by decide
/-- LD-9 and LD-11. -/
theorem test_ldword_faults :
    shows (exec (.ldword 2#64) (loadingWith 0#64 1 [1#64])) = some (some ⟨6#64, true⟩, 0x10620#64, [1#64]) ∧
    shows (exec (.ldword 5#64) State.reset) = some (some ⟨2#64, true⟩, 0x202#64, [3#64]) := by decide
/-- LD-14 and LD-17. -/
theorem test_ldend :
    shows (exec .ldend (loadingWith 0#64 3 [])) = some (some ⟨1#64, false⟩, 0#64, [3#64]) ∧
    shows (exec .ldend (loadingWith 9#64 3 [9223372036854775807#64, 0#64])) =
      some (some ⟨2#64, false⟩, 0#64, [9223372036854775807#64, 0#64]) := by decide
/-- LD-3 and LD-2. -/
theorem test_rdcur_rdnw :
    shows (exec .rdcur (loadingWith 3#64 3 [])) = some (some ⟨3#64, false⟩, 0x10000#64, []) ∧
    shows (exec .rdnw (loadingWith 3#64 3 [])) = some (some ⟨0#64, false⟩, 0x10000#64, []) := by decide
/-- LD-4 and RD-4. -/
theorem test_rdword :
    shows (exec (.rdword 0#64) (loadingWith 3#64 3 [])) = some (some ⟨4#64, true⟩, 0x10408#64, []) ∧
    shows (exec (.rdword 1#64) (holding 3 [9223372036854775807#64, 0#64])) =
      some (some ⟨0#64, false⟩, 0#64, [9223372036854775807#64, 0#64]) := by decide

/-- CTL-8: the state that LD-4 leaves. -/
theorem test_rdstat : shows (exec .rdstat ((loadingWith 3#64 3 []).setFlags 0x08#8 4#4)) =
    some (some ⟨0x10408#64, false⟩, 0x10408#64, []) := by decide
/-- CTL-3 to CTL-6. -/
theorem test_rdcfg :
    shows (exec (.rdcfg 0#64) (built 10 7)) = some (some ⟨10#64, false⟩, 0#64, [3#64]) ∧
    shows (exec (.rdcfg 1#64) (built 10 7)) = some (some ⟨7#64, false⟩, 0#64, [3#64]) ∧
    shows (exec (.rdcfg 2#64) (built 10 7)) = some (some ⟨64#64, false⟩, 0#64, [3#64]) ∧
    shows (exec (.rdcfg 3#64) (built 10 7)) = some (some ⟨4#64, true⟩, 0x408#64, [3#64]) := by decide

/-- R40, and R29's canonical form of it. -/
theorem test_reset_state :
    State.reset.words = [3#64] ∧ State.reset.nw = 1#64 ∧ State.reset.cur = 0#64 ∧ State.reset.status = 0#64 ∧
    State.reset.err = false ∧ histWf State.reset.cfg.bins State.reset.hist = true := by decide
/-- FLT-2: reset clears what FLT-1 recorded. -/
theorem test_reset_clears : shows (step ((State.reset.setFlags 0x1B#8 1#4).setPending [.reset])) =
    some (none, 0#64, [3#64]) := by decide
/-- The placed word runs as the next step. -/
theorem test_fetch_word : showsRun (step (State.reset.withFetchWord 16 0x0004)) =
    some ⟨some ⟨512#64, false⟩, 1#64, [9#64], [(512, 1#64)]⟩ := by decide

/-! ## Witnesses: states and operands that meet the hypotheses of the statements -/

/-- The last response is one the core gives, where none was given or it carries no error. -/
theorem responseLegal_of_no_error {s : State} (h : ∀ r, s.rsp = some r → r.err = false) : ResponseLegal s := by
  intro r hr he
  rw [h r hr] at he
  cases he

/-- A core that can grow to three words. -/
theorem legal_idle : Legal (holding 3 [0x7FFFFFFFFFFFFFFF#64]) where
  build := by decide
  rest := by decide
  count := by unfold CountInRange; decide
  hist := by decide
  status := by unfold StatusLegal; decide
  response := responseLegal_of_no_error (by intro r h; cases h)

/-- A load that has just begun. -/
theorem legal_loading : Legal (loadingWith 5#64 1 []) where
  build := by decide
  rest := by decide
  count := by unfold CountInRange; decide
  hist := by decide
  status := by unfold StatusLegal; decide
  response := responseLegal_of_no_error (by intro r h; cases h)

theorem witness_WordIsLegalIffInOpcodeMap :
    decode ⟨0x0022#16, 7#64⟩ = .command (.rdword 7#64) ∧ operandOf (.rdword 7#64) = some 7#64 := by decide

/-- Both ends of every unassigned range, and a word with a reserved bit. -/
theorem witness_IllegalWordRaisesIllegalCmd :
    (State.reset.setPending [.command ⟨0x0111#16, 0#64⟩]).cfg.wf = true ∧
    (0x0111#16).extractLsb' 8 8 ≠ 0#8 ∧
    (∀ c ∈ [0x0005#16, 0x000F#16, 0x0013#16, 0x001F#16, 0x0024#16, 0x002F#16, 0x0032#16, 0x00FF#16],
      (0x05 ≤ (c.extractLsb' 0 8).toNat ∧ (c.extractLsb' 0 8).toNat ≤ 0x0F) ∨
      (0x13 ≤ (c.extractLsb' 0 8).toNat ∧ (c.extractLsb' 0 8).toNat ≤ 0x1F) ∨
      (0x24 ≤ (c.extractLsb' 0 8).toNat ∧ (c.extractLsb' 0 8).toNat ≤ 0x2F) ∨
      (0x32 ≤ (c.extractLsb' 0 8).toNat ∧ (c.extractLsb' 0 8).toNat ≤ 0xFF)) := by
  refine ⟨by decide, by decide, ?_⟩
  intro c hc
  simp only [List.mem_cons, List.not_mem_nil, or_false] at hc
  rcases hc with rfl | rfl | rfl | rfl | rfl | rfl | rfl | rfl <;> simp

theorem witness_UnreadOperandHasNoEffect :
    0x0030#16 ∈ [0x0000#16, 0x0001#16, 0x0004#16, 0x0012#16, 0x0020#16, 0x0021#16, 0x0030#16] := by decide

/-- An input that decodes, and no input. -/
theorem witness_StepRunsTheDecodedCommand :
    (State.reset.setPending [.command ⟨0x0004#16, 9#64⟩]).cfg.wf = true ∧
    decode ⟨0x0004#16, 9#64⟩ = .command .step ∧ State.reset.cfg.wf = true ∧ State.reset.pending = [] := by decide

/-- A command that raises and one that does not. -/
theorem witness_CommandThatRaisesWritesOnlyItsFault :
    (∃ t, exec (.hinc 1024#64) State.reset = .next t ∧ t.rsp = some ⟨3#64, true⟩) ∧
    ∃ t, exec (.hinc 1023#64) State.reset = .next t ∧ t.rsp = some ⟨1#64, false⟩ :=
  ⟨⟨_, rfl, by decide⟩, ⟨_, rfl, by decide⟩⟩

/-- A step that is no reset from a state with a fault recorded, a first and a later fault, and a reset. -/
theorem witness_FaultBitsClearOnlyOnReset :
    (∃ t, step ((State.reset.setFlags 0x01#8 1#4).setPending [.command ⟨0x0003#16, 1024#64⟩]) = .next t) ∧
    isReset (.command ⟨0x0003#16, 1024#64⟩) = false ∧
    (State.reset.setFlags 0x01#8 1#4).status.getLsbD 0 = true ∧
    (State.reset.setFlags 0x01#8 1#4).status.extractLsb' 8 4 ≠ 0#4 ∧
    State.reset.status.extractLsb' 8 4 = 0#4 ∧ isReset .reset = true ∧ State.reset.cfg.wf = true :=
  ⟨⟨_, rfl⟩, by decide⟩

/-- The ends of the reserved bits, and a run from reset that ends with a fault recorded and a load in progress. -/
theorem witness_StatusWordReadsAsLaidOut :
    (∀ k ∈ [12, 15, 17, 63], (12 ≤ k ∧ k ≤ 15) ∨ (17 ≤ k ∧ k ≤ 63)) ∧ Config.wf ⟨10, 3⟩ = true ∧
    ∃ t, runFor 2 ((State.resetWith ⟨10, 3⟩).setPending
      [.command ⟨0x0005#16, 0#64⟩, .command ⟨0x0010#16, 7#64⟩]) = .next t ∧ t.status = 0x10101#64 :=
  ⟨by decide, by decide, ⟨_, rfl, by decide⟩⟩

theorem witness_ErrOutputIsOrOfFaultBits :
    (State.reset.setFlags 0x80#8 8#4).err = true ∧
    (∃ t, step ((State.reset.setFlags 0x80#8 8#4).setPending [.command ⟨0x0000#16, 0#64⟩]) = .next t) ∧
    isReset (.resetDuring ⟨0x0000#16, 0#64⟩) = true :=
  ⟨by decide, ⟨_, rfl⟩, rfl⟩

theorem witness_ModeMatrixDecidesSeqErr :
    legalIn .loading .adv = false ∧ legalIn .idle .ldend = false ∧ legalIn .loading .ldend = true ∧
    legalIn .idle .adv = true := by decide

/-- Each of the seven codes a command can answer. -/
theorem witness_EachFaultComesOnlyFromItsCommands :
    (∃ t, exec .ldend State.reset = .next t ∧ t.rsp = some ⟨2#64, true⟩) ∧
    (∃ t, exec (.hinc 1024#64) State.reset = .next t ∧ t.rsp = some ⟨3#64, true⟩) ∧
    (∃ t, exec (.rdcfg 3#64) State.reset = .next t ∧ t.rsp = some ⟨4#64, true⟩) ∧
    (∃ t, exec (.ldword 0x8000000000000000#64) (loadingWith 3#64 3 []) = .next t ∧ t.rsp = some ⟨5#64, true⟩) ∧
    (∃ t, exec .adv (holding 1 [4611686018427387904#64]) = .next t ∧ t.rsp = some ⟨6#64, true⟩) ∧
    (∃ t, exec .step (State.reset.setHist [(512, 0xFFFFFFFFFFFFFFFF#64)]) = .next t ∧
      t.rsp = some ⟨7#64, true⟩) ∧
    ∃ t, exec .step (State.reset.setCur 0xFFFFFFFFFFFFFFFF#64) = .next t ∧ t.rsp = some ⟨8#64, true⟩ :=
  ⟨⟨_, rfl, by decide⟩, ⟨_, rfl, by decide⟩, ⟨_, rfl, by decide⟩, ⟨_, rfl, by decide⟩, ⟨_, rfl, by decide⟩,
    ⟨_, rfl, by decide⟩, ⟨_, rfl, by decide⟩⟩

theorem witness_EveryCommandGetsItsResponse : Legal (loadingWith 5#64 1 []) := legal_loading

theorem witness_StopsAreExactlyTheRefusedCases :
    (built 64 1).cfg.wf = false ∧ (holding 1 [0x8000000000000000#64]).mode = .idle ∧
    atRest (holding 1 [0x8000000000000000#64]).words = false := by decide

/-- LOADING; a product that fills the store; one that does not fit; and a zero top word. -/
theorem witness_AdvAdvancesTheStore :
    (loadingWith 0#64 1 []).mode = .loading ∧
    ((holding 2 [0x7FFFFFFFFFFFFFFF#64]).mode = .idle ∧ atRest (holding 2 [0x7FFFFFFFFFFFFFFF#64]).words = true ∧
      (advance (holding 2 [0x7FFFFFFFFFFFFFFF#64]).words).length ≤ (holding 2 [0x7FFFFFFFFFFFFFFF#64]).cfg.maxw) ∧
    ((holding 1 [0x7FFFFFFFFFFFFFFF#64]).mode = .idle ∧ atRest (holding 1 [0x7FFFFFFFFFFFFFFF#64]).words = true ∧
      (holding 1 [0x7FFFFFFFFFFFFFFF#64]).cfg.maxw < (advance (holding 1 [0x7FFFFFFFFFFFFFFF#64]).words).length) ∧
    atRest [0x7FFFFFFFFFFFFFFF#64] = true := by decide

theorem witness_AdvanceTriplesTheValue : atRest [0x7FFFFFFFFFFFFFFF#64, 0#64] = true := by decide

theorem witness_AdvanceNeverOverflowsAWord : (0x7FFFFFFFFFFFFFFF#64).toNat < 2 ^ 63 := by decide

/-- The largest word that does not grow and the smallest that does: 3 * 3074457345618258602 = 2^63 - 2. -/
theorem witness_AdvanceGrowsExactlyWhenNeeded :
    (atRest [3074457345618258602#64] = true ∧ 3 * val [3074457345618258602#64] < 2 ^ (63 * 1)) ∧
    atRest [3074457345618258603#64] = true ∧ 2 ^ (63 * 1) ≤ 3 * val [3074457345618258603#64] := by decide

theorem witness_AdvSucceedsWheneverTheProductFits :
    Legal (holding 3 [0x7FFFFFFFFFFFFFFF#64]) ∧ (holding 3 [0x7FFFFFFFFFFFFFFF#64]).mode = .idle ∧
    3 * val (holding 3 [0x7FFFFFFFFFFFFFFF#64]).words < 2 ^ (63 * (holding 3 [0x7FFFFFFFFFFFFFFF#64]).cfg.maxw) :=
  ⟨legal_idle, by decide⟩

/-- IDLE and LOADING; the first position past a one-word store; a window of one whole word. -/
theorem witness_BinAnswersTheWindow :
    State.reset.mode = .idle ∧ (loadingWith 0#64 1 []).mode = .loading ∧
    (atRest [0x7FFFFFFFFFFFFFFF#64] = true ∧ 63 * 1 + (10 - 1) ≤ (72#64).toNat) ∧ (62#64).toNat % 63 = 62 ∧
    atRest [0x7FFFFFFFFFFFFFFF#64, 1#64] = true := by decide

theorem witness_BinValueIsItsClosedForm :
    1 ≤ 63 ∧ 63 ≤ 63 ∧ atRest [0x7FFFFFFFFFFFFFFF#64, 0#64] = true := by decide

theorem witness_BinValueIsBelowBinCountAndPure :
    1 ≤ 63 ∧ 63 ≤ 63 ∧ State.reset.mode = .idle ∧ ∃ t, exec (.bin 0#64) State.reset = .next t :=
  ⟨by decide, by decide, rfl, ⟨_, rfl⟩⟩

/-- The highest position whose window still reaches below bit 0, and position 0. -/
theorem witness_WindowIsZeroPaddedBelowBitZero :
    State.reset.cfg.wf = true ∧ State.reset.mode = .idle ∧ (8#64).toNat + 1 < State.reset.cfg.digits ∧
    (0#64).toNat + 1 < State.reset.cfg.digits := by decide

/-- The last legal bin, the first illegal one, and a counter at its maximum. -/
theorem witness_HincAddsOneToItsCounter :
    State.reset.mode = .idle ∧ (1023#64).toNat < 2 ^ State.reset.cfg.digits ∧
    (State.reset.counter 1023).toNat < 2 ^ 64 - 1 ∧ 2 ^ State.reset.cfg.digits ≤ (1024#64).toNat ∧
    ((State.reset.setHist [(40, 0xFFFFFFFFFFFFFFFF#64)]).counter 40).toNat = 2 ^ 64 - 1 ∧
    (loadingWith 0#64 1 []).mode = .loading := by decide

theorem witness_RdhistReadsItsCounter :
    (1023#64).toNat < 2 ^ State.reset.cfg.digits ∧ 2 ^ State.reset.cfg.digits ≤ (1024#64).toNat := by decide

/-- The largest legal word, the smallest illegal one, a full store and one that is not. -/
theorem witness_LdwordAppendsOneWord :
    State.reset.mode = .idle ∧ (loadingWith 0#64 1 [1#64]).mode = .loading ∧
    2 ^ 63 ≤ (0x8000000000000000#64).toNat ∧ (0x7FFFFFFFFFFFFFFF#64).toNat < 2 ^ 63 ∧
    (loadingWith 0#64 1 [1#64]).words.length = (loadingWith 0#64 1 [1#64]).cfg.maxw ∧
    (loadingWith 0#64 1 []).words.length ≠ (loadingWith 0#64 1 []).cfg.maxw := by decide

theorem witness_LdendEndsTheLoad :
    State.reset.mode = .idle ∧ (loadingWith 0#64 1 []).mode = .loading ∧ (loadingWith 0#64 1 []).words = [] ∧
    (loadingWith 0#64 1 [0#64]).words ≠ [] ∧ (∃ t, exec .ldend (loadingWith 0#64 1 [0#64]) = .next t) :=
  ⟨rfl, rfl, rfl, by decide, ⟨_, rfl⟩⟩

/-- Right after LDBEG, and later in the load, after a command that faults there. -/
theorem witness_RdcurReadsTheCursor :
    ∃ t, exec (.ldbeg 3#64) State.reset = .next t ∧ (∃ u, runFor 0 (t.given []) = .next u) ∧
    (∀ i ∈ [Instr.ldword 81#64, .step], i ≠ .ldend ∧ ∀ c, i ≠ .ldbeg c) ∧
    ∃ u, runFor 2 (t.given [.ldword 81#64, .step]) = .next u :=
  ⟨_, rfl, ⟨_, rfl⟩, by simp, ⟨_, rfl⟩⟩

theorem witness_RdnwReadsTheWordCount :
    Legal (loadingWith 5#64 1 []) ∧ (loadingWith 5#64 1 []).nw = 0#64 := ⟨legal_loading, by decide⟩

theorem witness_RdwordReadsAValidWord :
    State.reset.words[(0#64).toNat]? = some 3#64 ∧ (0#64).toNat < State.reset.words.length ∧
    atRest State.reset.words = true ∧ State.reset.words.length ≤ (1#64).toNat := by decide

/-- The reset state with one counter and the cursor at these values. -/
def near (count cursor : Word) : State := ((built 10 1).setHist [(512, count)]).setCur cursor

/-- LOADING, and a product that does not fit. -/
theorem witness_StepDoesOneIteration_first :
    (loadingWith 0#64 1 []).mode = .loading ∧
    ((holding 1 [0x7FFFFFFFFFFFFFFF#64]).mode = .idle ∧ atRest (holding 1 [0x7FFFFFFFFFFFFFFF#64]).words = true ∧
      (holding 1 [0x7FFFFFFFFFFFFFFF#64]).cfg.maxw <
        (advance (holding 1 [0x7FFFFFFFFFFFFFFF#64]).words).length) := by decide

/-- A counter at its maximum, the cursor at its maximum, and a STEP that succeeds with the counter one below it. -/
theorem witness_StepDoesOneIteration :
    (∀ c n, (near c n).mode = .idle ∧ atRest (near c n).words = true ∧
      (advance (near c n).words).length ≤ (near c n).cfg.maxw) ∧
    ((near 0xFFFFFFFFFFFFFFFF#64 0#64).counter
      (binValue 10 (near 0xFFFFFFFFFFFFFFFF#64 0#64).words 0#64).toNat).toNat = 2 ^ 64 - 1 ∧
    (((near 0#64 0xFFFFFFFFFFFFFFFF#64).counter
      (binValue 10 (near 0#64 0xFFFFFFFFFFFFFFFF#64).words 0xFFFFFFFFFFFFFFFF#64).toNat).toNat < 2 ^ 64 - 1 ∧
      (near 0#64 0xFFFFFFFFFFFFFFFF#64).cur.toNat = 2 ^ 64 - 1) ∧
    (((near 0xFFFFFFFFFFFFFFFE#64 0#64).counter
      (binValue 10 (near 0xFFFFFFFFFFFFFFFE#64 0#64).words 0#64).toNat).toNat < 2 ^ 64 - 1 ∧
      (near 0xFFFFFFFFFFFFFFFE#64 0#64).cur.toNat < 2 ^ 64 - 1) :=
  ⟨fun _ _ => ⟨rfl, rfl, (by decide : 1 ≤ 1)⟩, by decide, by decide, by decide⟩

theorem witness_StepInClosedForm :
    Legal (holding 3 [0x7FFFFFFFFFFFFFFF#64]) ∧ (holding 3 [0x7FFFFFFFFFFFFFFF#64]).mode = .idle ∧
    3 * val (holding 3 [0x7FFFFFFFFFFFFFFF#64]).words < 2 ^ (63 * (holding 3 [0x7FFFFFFFFFFFFFFF#64]).cfg.maxw) ∧
    ((holding 3 [0x7FFFFFFFFFFFFFFF#64]).counter
      (window 10 (val [0x7FFFFFFFFFFFFFFF#64]) 0)).toNat < 2 ^ 64 - 1 ∧
    (holding 3 [0x7FFFFFFFFFFFFFFF#64]).cur.toNat < 2 ^ 64 - 1 :=
  ⟨legal_idle, by decide⟩

theorem witness_StepIsBinThenHincThenAdv :
    State.reset.cfg.wf = true ∧ ∃ t, exec .step State.reset = .next t ∧ t.rsp = some ⟨512#64, false⟩ :=
  ⟨by decide, ⟨_, rfl, by decide⟩⟩

theorem witness_NopChangesNothing :
    (State.reset.setPending [.command ⟨0x0100#16, 0#64⟩]).cfg.wf = true ∧
    (State.reset.setPending [.command ⟨0x0100#16, 0#64⟩]).pending = [.command ⟨0x0100#16, 0#64⟩] := by decide

theorem witness_RdcfgReadsTheBuild :
    3 ≤ (3#64).toNat ∧ Config.wf ⟨63, 2 ^ 64 - 1⟩ = true ∧
    ∃ t, step (State.reset.setPending [.reset]) = .next t := ⟨by decide, by decide, ⟨_, rfl⟩⟩

/-- A success that each command's column allows to write, and one that writes nothing. -/
theorem witness_CommandsWriteOnlyTheirColumns :
    (∃ t, exec .step State.reset = .next t ∧ t.rsp = some ⟨512#64, false⟩) ∧
    ∃ t, exec .rdcur State.reset = .next t ∧ t.rsp = some ⟨0#64, false⟩ :=
  ⟨⟨_, rfl, by decide⟩, ⟨_, rfl, by decide⟩⟩

theorem witness_WordsStayBelowTheMarker :
    atRest [0x7FFFFFFFFFFFFFFF#64] = true ∧
    (∃ t, exec .adv (holding 3 [0x7FFFFFFFFFFFFFFF#64]) = .next t) ∧
    ∃ t, step ((holding 3 [0x7FFFFFFFFFFFFFFF#64]).setPending [.command ⟨0x0001#16, 0#64⟩]) = .next t ∧
      t.words[1]? = some 2#64 := ⟨by decide, ⟨_, rfl⟩, ⟨_, rfl, by decide⟩⟩

theorem witness_WordCountStaysInRange :
    CountInRange (holding 1 [3#64]) ∧ (∃ t, step ((holding 1 [3#64]).setPending [.reset]) = .next t) ∧
    CountInRange (loadingWith 0#64 1 []) := ⟨by unfold CountInRange; decide, ⟨_, rfl⟩, by unfold CountInRange; decide⟩

theorem witness_WordCountChangesOnlyAsListed :
    (∃ t, exec .adv State.reset = .next t) ∧ (∃ t, exec .step State.reset = .next t) ∧
    (∃ t, exec (.ldbeg 0#64) State.reset = .next t) ∧
    (∃ t, exec (.ldword 1#64) (loadingWith 0#64 1 []) = .next t ∧ t.rsp = some ⟨1#64, false⟩) ∧
    (∃ t, exec (.ldword 1#64) State.reset = .next t ∧ t.rsp = some ⟨2#64, true⟩) ∧
    (∃ t, exec .ldend (loadingWith 0#64 1 []) = .next t) ∧ (∃ t, exec .nop State.reset = .next t) ∧
    (∃ t, step ((loadingWith 0#64 1 []).setPending [.reset]) = .next t) :=
  ⟨⟨_, rfl⟩, ⟨_, rfl⟩, ⟨_, rfl⟩, ⟨_, rfl, by decide⟩, ⟨_, rfl, by decide⟩, ⟨_, rfl⟩, ⟨_, rfl⟩, ⟨_, rfl⟩⟩

theorem witness_CursorChangesOnlyAsListed :
    (∃ t, exec (.ldbeg 0xFFFFFFFFFFFFFFFF#64) State.reset = .next t) ∧
    (∃ t, exec .step (State.reset.setCur 0xFFFFFFFFFFFFFFFE#64) = .next t ∧ t.rsp = some ⟨0#64, false⟩) ∧
    (∃ t, step ((State.reset.setCur 9#64).setPending [.reset]) = .next t) ∧
    ∃ t, exec (.hinc 0#64) State.reset = .next t :=
  ⟨⟨_, rfl⟩, ⟨_, rfl, by decide⟩, ⟨_, rfl⟩, ⟨_, rfl⟩⟩

theorem witness_CountersOnlyEverIncrement :
    (∃ t, exec (.hinc 0#64) State.reset = .next t ∧ t.rsp = some ⟨1#64, false⟩) ∧
    (∃ t, exec .step State.reset = .next t ∧ t.rsp = some ⟨512#64, false⟩) ∧
    (∃ t, step ((State.reset.setHist [(5, 1#64)]).setPending [.reset]) = .next t) ∧
    (∃ t, step (State.reset.setPending [.command ⟨0x0003#16, 5#64⟩]) = .next t) ∧
    ∃ t, exec (.ldbeg 0#64) (State.reset.setHist [(5, 1#64)]) = .next t :=
  ⟨⟨_, rfl, by decide⟩, ⟨_, rfl, by decide⟩, ⟨_, rfl⟩, ⟨_, rfl⟩, ⟨_, rfl⟩⟩

theorem witness_ModeChangesOnlyAsListed :
    (∃ t, exec (.ldbeg 0#64) (loadingWith 0#64 1 [1#64]) = .next t) ∧
    (∃ t, exec .ldend (loadingWith 0#64 1 [1#64]) = .next t) ∧ (∃ t, exec .ldend State.reset = .next t) ∧
    ∃ t, step ((loadingWith 0#64 1 []).setPending [.reset]) = .next t :=
  ⟨⟨_, rfl⟩, ⟨_, rfl⟩, ⟨_, rfl⟩, ⟨_, rfl⟩⟩

/-- Reads that answer, one that faults, and a run of both. -/
theorem witness_ReadsAnswerFromOneUnchangedState :
    State.reset.cfg.wf = true ∧
    (∀ i ∈ [Instr.rdcur, .rdword 9#64, .nop, .rdstat], readsOnly i = true ∨ i = .nop) ∧
    (∃ t, exec (.rdword 0#64) State.reset = .next t ∧ t.rsp = some ⟨3#64, false⟩) ∧
    ∃ u, runFor 4 (State.reset.given [.rdcur, .rdword 9#64, .nop, .rdstat]) = .next u :=
  ⟨by decide, by decide, ⟨_, rfl, by decide⟩, ⟨_, rfl⟩⟩

theorem witness_ResetGivesEveryResetValue :
    ((loadingWith 5#64 1 []).setPending [.reset]).cfg.wf = true ∧
    ((loadingWith 5#64 1 []).setPending [.reset]).pending = [.reset] := by decide

theorem witness_ResetAbandonsTheCommandInProgress :
    ((loadingWith 5#64 1 []).setPending [.resetDuring ⟨0x0011#16, 7#64⟩]).cfg.wf = true ∧
    ((loadingWith 5#64 1 []).setPending [.resetDuring ⟨0x0011#16, 7#64⟩]).pending =
      [.resetDuring ⟨0x0011#16, 7#64⟩] := by decide

theorem witness_SeedSequenceIsAFreshStart : (loadingWith 5#64 1 [7#64]).cfg.wf = true := by decide

theorem witness_ResetStateIsLegal : Config.wf ⟨1, 1⟩ = true ∧ Config.wf ⟨63, 2 ^ 64 - 1⟩ = true := by decide

theorem witness_StepKeepsEveryStateLegal :
    Legal (loadingWith 5#64 1 []) ∧ ∃ t, step (loadingWith 5#64 1 []) = .next t := ⟨legal_loading, ⟨_, rfl⟩⟩

/-- A run of both commands from reset, and a load whose top word is 0. -/
theorem witness_TopWordIsNeverZeroWithoutALoad :
    Config.wf ⟨10, 3⟩ = true ∧ (∀ i ∈ [Instr.adv, .step], i = .adv ∨ i = .step) ∧
    (∃ t, runFor 2 ((built 10 3).given [.adv, .step]) = .next t) ∧
    (loadingWith 0#64 1 []).mode = .loading ∧
    (loadingWith 0#64 1 []).words.length ≠ (loadingWith 0#64 1 []).cfg.maxw :=
  ⟨by decide, by decide, ⟨_, rfl⟩, by decide, by decide⟩

theorem witness_WordCountIsTheValuesLength :
    Config.wf ⟨10, 3⟩ = true ∧ (∀ i ∈ [Instr.adv, .step], i = .adv ∨ i = .step) ∧
    ∃ t, runFor 2 ((built 10 3).given [.adv, .step]) = .next t := ⟨by decide, by decide, ⟨_, rfl⟩⟩

theorem witness_CounterSumIsTheNumberOfIncrements :
    Config.wf ⟨10, 3⟩ = true ∧ ∃ t, runFor 3 ((built 10 3).given [.hinc 1023#64, .step, .rdnw]) = .next t ∧
      t.faultBits = 0#8 := ⟨by decide, ⟨_, rfl, by decide⟩⟩

/-- The most iterations a one-word store holds: 3^39 < 2^63 <= 3^40. -/
theorem witness_RunFromSeedFollowsTheRunLaw :
    Config.wf ⟨10, 1⟩ = true ∧ SeedRunFits ⟨10, 1⟩ 38 ∧ ¬ SeedRunFits ⟨10, 1⟩ 39 ∧ SeedRunFits ⟨10, 1⟩ (37 + 1) := by
  unfold SeedRunFits; decide

theorem witness_SeedRunNeverReadsAboveTheStore :
    Config.wf ⟨10, 1⟩ = true ∧ SeedRunFits ⟨10, 1⟩ 1 ∧
    ∃ t, runFor 1 ((built 10 1).given (Pseudo.run 1)) = .next t :=
  ⟨by decide, by unfold SeedRunFits; decide, ⟨_, rfl⟩⟩

/-- A store filled to the last slot with the largest word. -/
theorem witness_LoadThenSaveRoundTrips :
    (loadingWith 5#64 1 []).cfg.wf = true ∧ [0x7FFFFFFFFFFFFFFF#64] ≠ [] ∧
    [0x7FFFFFFFFFFFFFFF#64].length ≤ (loadingWith 5#64 1 []).cfg.maxw ∧
    (∀ w ∈ [0x7FFFFFFFFFFFFFFF#64], w.toNat < 2 ^ 63) ∧ [0x7FFFFFFFFFFFFFFF#64][0]? = some 0x7FFFFFFFFFFFFFFF#64 :=
  ⟨by decide, by decide, by decide, by simp, rfl⟩

/-- Two states with different counters and flags. -/
theorem witness_WordsAndCursorIgnoreHistory :
    (∀ k, (built 10 3).counter k ≠ maxWord) ∧
    (∀ k, (((built 10 3).setHist [(5, 1#64)]).setFlags 0x01#8 1#4).counter k ≠ maxWord) ∧
    (∃ t, exec .step (built 10 3) = .next t) ∧
    ∃ t, exec .step (((built 10 3).setHist [(5, 1#64)]).setFlags 0x01#8 1#4) = .next t := by
  refine ⟨fun k => (by decide : (0#64 : Word) ≠ maxWord), fun k => ?_, ⟨_, rfl⟩, ⟨_, rfl⟩⟩
  simp only [State.counter, State.setFlags, State.setHist, histGet]
  split
  · decide
  · split <;> decide

/-- No iteration before the save, one, and all of them. -/
theorem witness_ResumedRunEqualsTheSingleRun :
    Config.wf ⟨10, 1⟩ = true ∧ 0 ≤ 38 ∧ 38 ≤ 38 ∧ SeedRunFits ⟨10, 1⟩ 38 := by
  unfold SeedRunFits; decide

end Sys2Proof.Tests
end

section
/-! PROOFS. The statement of 00_scope.md about how a command ends. -/

namespace Sys2Proof.Machine

/-- Settles O8: by `exec_flags` a command that answers either succeeded, with the error bit clear, or its state is
the fault recording of some code, which is what `raise` answers. -/
theorem commandThatRaisesWritesOnlyItsFault : Obligations.CommandThatRaisesWritesOnlyItsFault := by
  unfold Obligations.CommandThatRaisesWritesOnlyItsFault
  intro i s t h
  obtain ⟨-, -, d, hrsp⟩ | ⟨c, rfl⟩ := exec_flags h
  · exact ⟨⟨d, false⟩, hrsp, nofun⟩
  · exact ⟨_, recordFault_rsp c s, fun _ => ⟨c, rfl, rfl⟩⟩

end Sys2Proof.Machine
end

section
/-! PROOFS. What a command that succeeds writes, the two kinds of step, and the inductions over steps and over given
commands. The statements of 10_state.md cite these. -/

namespace Sys2Proof.Machine

/-- What a command that succeeds writes, but for its response, with what it checked: `Writes s i u` says that `i`
takes `s` to `u`. NOP, BIN and the reads write nothing. -/
inductive Writes (s : State) : Instr → State → Prop
  | nothing (i) : readsOnly i = true ∨ i = .nop → Writes s i s
  | adv : s.mode = .idle → atRest s.words = true → (advance s.words).length ≤ s.cfg.maxw →
      Writes s .adv (s.setWords (advance s.words))
  | hinc (k) : s.mode = .idle → k.toNat < s.cfg.bins → s.counter k.toNat ≠ maxWord →
      Writes s (.hinc k) (s.incCounter k.toNat)
  | step : s.mode = .idle → atRest s.words = true → (advance s.words).length ≤ s.cfg.maxw →
      s.counter (iterationBin s).toNat ≠ maxWord → s.cur ≠ maxWord → Writes s .step s.iterate
  | ldbeg (c) : Writes s (.ldbeg c) (((s.setCur c).setWords []).setMode .loading)
  | ldword (v) : s.mode = .loading → wordInRange v = true → s.words.length ≠ s.cfg.maxw →
      Writes s (.ldword v) (s.setWords (s.words ++ [v]))
  | ldend : s.mode = .loading → Writes s .ldend ((s.setWords (seedIfEmpty s.words)).setMode .idle)

/-- A command that answers has recorded a fault and nothing else, or has done its writes and answered without error. -/
theorem exec_next {i : Instr} {s t : State} (h : exec i s = .next t) :
    (∃ c, t = recordFault c s) ∨ ∃ u d, Writes s i u ∧ t = u.setRsp ⟨d, false⟩ := by
  have he := exec_effect i s
  rw [h] at he
  generalize hr : (Host.Outcome.next t : Result) = r at he
  cases he
  case raised c _ => exact .inl ⟨c, raise_eq hr.symm⟩
  case refused => cases hr
  case adv hm ha hl => exact .inr ⟨_, _, .adv hm ha hl, respond_eq hr.symm⟩
  case hinc k hm hk hc => exact .inr ⟨_, _, .hinc k hm hk hc, respond_eq hr.symm⟩
  case step hm ha hl hc hcur => exact .inr ⟨_, _, .step hm ha hl hc hcur, respond_eq hr.symm⟩
  case ldbeg c => exact .inr ⟨_, _, .ldbeg c, respond_eq hr.symm⟩
  case ldword v _ _ _ => exact .inr ⟨_, _, .ldword v ‹_› ‹_› ‹_›, respond_eq hr.symm⟩
  case ldend hm => exact .inr ⟨_, _, .ldend hm, respond_eq hr.symm⟩
  case nop => exact .inr ⟨_, _, .nothing .nop (.inr rfl), respond_eq hr.symm⟩
  all_goals exact .inr ⟨_, _, .nothing _ (.inl rfl), respond_eq hr.symm⟩

/-- A command that answers without error has done its writes. -/
theorem exec_success {i : Instr} {s t : State} {d : Word} (h : exec i s = .next t) (hr : t.rsp = some ⟨d, false⟩) :
    ∃ u, Writes s i u ∧ t = u.setRsp ⟨d, false⟩ := by
  obtain ⟨c, rfl⟩ | ⟨u, d', hw, rfl⟩ := exec_next h
  · cases hr
  · cases hr
    exact ⟨u, hw, rfl⟩

/-- LDEND outside a load (R152). -/
theorem exec_ldend_idle {s : State} (hm : s.mode = .idle) : exec .ldend s = raise .seqErr s := by
  simp [exec, execLdend, hm]

/-- LDEND at the end of a load (R152). -/
theorem exec_ldend_loading {s : State} (hm : s.mode = .loading) :
    exec .ldend s = respond (countWord (seedIfEmpty s.words).length)
      ((s.setWords (seedIfEmpty s.words)).setMode .idle) := by
  simp [exec, execLdend, hm]

/-- LDWORD of a word in range into a load with room (R151). -/
theorem exec_ldword_room {s : State} {v : Word} (hm : s.mode = .loading) (hv : wordInRange v = true)
    (hl : s.words.length ≠ s.cfg.maxw) :
    exec (.ldword v) s = respond (countWord (s.words.length + 1)) (s.setWords (s.words ++ [v])) := by
  simp [exec, execLdword, hm, hv, hl]

/-- A step that takes a reset leads to the reset state. -/
theorem step_of_reset {s t : State} {x : HostInput} {rest : List HostInput} (h : step s = .next t)
    (hp : s.pending = x :: rest) (hx : isReset x = true) : t = takeReset (s.setPending rest) := by
  have hr := step_reset (step_cases h).1 hp hx
  rw [h] at hr
  injection hr

/-- A step that takes no reset holds the state, runs a command, or records ILLEGAL_CMD. -/
theorem step_of_not_reset {s t : State} (h : step s = .next t)
    (hn : ∀ x rest, s.pending = x :: rest → isReset x = false) :
    t = s ∨ ∃ rest, (∃ i, exec i (s.setPending rest) = .next t) ∨ t = recordFault .illegalCmd (s.setPending rest) := by
  obtain ⟨-, ⟨-, rfl⟩ | ⟨c, rest, -, ⟨i, -, hi⟩ | ⟨-, rfl⟩⟩ | ⟨x, rest, hp, hx, -⟩⟩ := step_cases h
  · exact .inl rfl
  · exact .inr ⟨rest, .inl ⟨i, hi⟩⟩
  · exact .inr ⟨rest, .inr rfl⟩
  · rw [hn x rest hp] at hx
    cases hx

/-- A property that does not speak of the host's inputs, and that holds after a reset and is kept by every fault and
every command, is kept by every step. -/
theorem step_keeps {P : State → Prop} (hpend : ∀ s p, P s → P (s.setPending p))
    (hreset : ∀ s, s.cfg.wf = true → P (takeReset s)) (hfault : ∀ c s, P s → P (recordFault c s))
    (hexec : ∀ i s t, s.cfg.wf = true → P s → exec i s = .next t → P t)
    {s t : State} (hs : P s) (h : step s = .next t) : P t := by
  obtain ⟨hwf, ⟨-, rfl⟩ | ⟨c, rest, -, ⟨i, -, hi⟩ | ⟨-, rfl⟩⟩ | ⟨x, rest, -, -, rfl⟩⟩ := step_cases h
  · exact hs
  · exact hexec i (s.setPending rest) t hwf (hpend s rest hs) hi
  · exact hfault _ _ (hpend s rest hs)
  · exact hreset _ hwf

/-- What every step keeps, every run keeps. -/
theorem runFor_keeps {P : State → Prop} (hstep : ∀ s t, P s → step s = .next t → P t) {n : Nat} {s t : State}
    (hs : P s) (h : runFor n s = .next t) : P t := by
  induction n generalizing s with
  | zero => cases h; exact hs
  | succ n ih =>
    simp only [runFor] at h
    split at h
    · next s' hs' => exact ih (hstep s s' hs hs') h
    · cases h
    · cases h

/-- A machine that has these commands to come is the machine given them. -/
theorem given_of_pending {s : State} {is : List Instr} (h : s.pending = issue is) : s.given is = s := by
  rw [State.given, ← h]; rfl

/-- What each of the given commands keeps, and what does not speak of the host's inputs, their run keeps. -/
theorem runFor_given_keeps {P : State → Prop} (hpend : ∀ s p, P s → P (s.setPending p)) {is : List Instr}
    (hexec : ∀ i ∈ is, ∀ s t, P s → exec i s = .next t → P t) {s t : State} (hc : s.cfg.wf = true) (hs : P s)
    (h : runFor is.length (s.given is) = .next t) : P t := by
  induction is generalizing s with
  | nil => cases h; exact hpend s _ hs
  | cons i is ih =>
    simp only [List.length_cons, runFor, given_step hc] at h
    split at h
    · next u hu =>
      obtain ⟨hcfg, hp⟩ := exec_cfg hu
      rw [← given_of_pending hp] at h
      exact ih (fun j hj => hexec j (List.mem_cons_of_mem i hj)) (hcfg ▸ hc)
        (hexec i List.mem_cons_self _ u (hpend s _ hs) hu) h
    · cases h
    · cases h

end Sys2Proof.Machine
end

section
/-! PROOFS. STATUS (10_state.md section 6): what faults, steps and resets leave in it. -/

namespace Sys2Proof.Machine

/-- A fault bit of STATUS (R32). -/
theorem status_faultBit (s : State) {k : Nat} (hk : k < 8) : s.status.getLsbD k = s.faultBits.getLsbD k := by
  rw [status_bit, if_pos hk]

/-- The LOADING bit of STATUS (R34). -/
theorem status_loadingBit (s : State) : s.status.getLsbD 16 = loadingBit s.mode := by
  rw [status_bit]; rfl

/-- The reserved bits of STATUS read 0 (R34). -/
theorem status_reserved (s : State) {k : Nat} (hk : (12 ≤ k ∧ k ≤ 15) ∨ (17 ≤ k ∧ k ≤ 63)) :
    s.status.getLsbD k = false := by
  rw [status_bit, if_neg (by omega), if_neg (by omega), decide_eq_false (by omega), Bool.false_and]

/-- The LOADING bit is set exactly in a load. -/
theorem loadingBit_iff (m : Mode) : loadingBit m = true ↔ m = .loading := by cases m <;> decide

/-- FIRST_CAUSE keeps a code it holds (R33). -/
theorem noteFirstCause_of_ne {c : FaultCode} {f : BitVec 4} (h : f ≠ 0#4) : noteFirstCause c f = f := if_neg h

/-- FIRST_CAUSE takes the first code (R33). -/
theorem noteFirstCause_zero (c : FaultCode) : noteFirstCause c 0#4 = BitVec.ofNat 4 c.code := if_pos rfl

/-- The fault bits and FIRST_CAUSE after a step that takes no reset: as they were, or with one fault recorded. -/
theorem step_flags {s t : State} (h : step s = .next t)
    (hn : ∀ x rest, s.pending = x :: rest → isReset x = false) :
    (t.faultBits = s.faultBits ∧ t.firstCause = s.firstCause) ∨
      ∃ c, t.faultBits = setFaultBit c s.faultBits ∧ t.firstCause = noteFirstCause c s.firstCause := by
  obtain rfl | ⟨rest, ⟨i, hi⟩ | rfl⟩ := step_of_not_reset h hn
  · exact .inl ⟨rfl, rfl⟩
  · obtain ⟨hb, hf, -⟩ | ⟨c, rfl⟩ := exec_flags hi
    · exact .inl ⟨hb, hf⟩
    · exact .inr ⟨c, rfl, rfl⟩
  · exact .inr ⟨.illegalCmd, rfl, rfl⟩

/-- Every step keeps STATUS legal (R34). -/
theorem step_statusLegal {s t : State} (hs : StatusLegal s) (h : step s = .next t) : StatusLegal t := by
  refine step_keeps (P := StatusLegal) (fun _ _ hs => hs) (fun s _ => ?_) (fun _ _ => recordFault_status)
    (fun i s t _ hs he => ?_) hs h
  · simp [StatusLegal]
  · obtain ⟨hb, hf, -⟩ | ⟨c, rfl⟩ := exec_flags he
    · rwa [StatusLegal, hb, hf]
    · exact recordFault_status hs

/-- Settles O9: `step_flags` for the steps that take no reset, the recording of R203 for a fault, and the reset
state. -/
theorem faultBitsClearOnlyOnReset : Obligations.FaultBitsClearOnlyOnReset := by
  unfold Obligations.FaultBitsClearOnlyOnReset
  refine ⟨fun s t h hn => ?_, fun c s t h => ?_, fun s x rest hc hp hx => ?_⟩
  · simp only [status_first]
    obtain ⟨hb, hf⟩ | ⟨c, hb, hf⟩ := step_flags h hn
    · exact ⟨fun k hk hs => by rwa [status_faultBit t hk, hb, ← status_faultBit s hk], fun _ => hf⟩
    · refine ⟨fun k hk hs => ?_, fun h0 => by rw [hf, noteFirstCause_of_ne h0]⟩
      rw [status_faultBit t hk, hb, setFaultBit_bit c _ k hk, ← status_faultBit s hk, hs, Bool.true_or]
  · cases raise_eq h
    simp only [status_first, recordFault_firstCause]
    refine ⟨fun k hk => ?_, fun h0 => by rw [h0]; exact noteFirstCause_zero c, noteFirstCause_of_ne⟩
    rw [status_faultBit _ hk, status_faultBit s hk, recordFault_faultBits, setFaultBit_bit c _ k hk]
  · exact ⟨_, step_reset hc hp hx, status_faults _, status_first _⟩

/-- Settles O10: STATUS bit by bit for its layout, and for the last clause the invariant `StatusLegal`, which holds
at reset and which every step keeps. -/
theorem statusWordReadsAsLaidOut : Obligations.StatusWordReadsAsLaidOut := by
  unfold Obligations.StatusWordReadsAsLaidOut
  refine ⟨fun s => ?_, fun c s t h => ?_, fun s k => status_reserved s, fun cfg inputs n t _ h => ?_⟩
  · rw [status_loadingBit, loadingBit_iff]
  · cases raise_eq h
    rw [status_loadingBit, status_loadingBit, recordFault_mode]
  · have hreset : StatusLegal ((State.resetWith cfg).setPending inputs) := by simp [StatusLegal]
    obtain ⟨hle, hiff, -⟩ := runFor_keeps (fun _ _ => step_statusLegal) hreset h
    rw [status_first, status_faults]
    exact ⟨hle, hiff⟩

end Sys2Proof.Machine
end

section
/-! PROOFS. The word store and its count (10_state.md section 2): R21, R22, R24. -/

namespace Sys2Proof.Machine

/-- The words a load ends with keep R21. -/
theorem seedIfEmpty_atRest {ws : List Word} (h : atRest ws = true) : atRest (seedIfEmpty ws) = true := by
  cases ws with
  | nil => decide
  | cons w ws => exact h

/-- A load of no word ends with one, any other with what was loaded (R152). -/
theorem seedIfEmpty_length (ws : List Word) :
    (seedIfEmpty ws).length = if ws.length = 0 then 1 else ws.length := by
  cases ws <;> rfl

/-- The advance never drops a word. -/
theorem length_le_advance (ws : List Word) : ws.length ≤ (advance ws).length := by
  have := advance_len ws
  omega

/-- Every command keeps R21. -/
theorem exec_atRest {i : Instr} {s t : State} (hs : atRest s.words = true) (h : exec i s = .next t) :
    atRest t.words = true := by
  obtain ⟨c, rfl⟩ | ⟨u, d, hw, rfl⟩ := exec_next h
  · exact hs
  · cases hw with
    | nothing | hinc => exact hs
    | adv | step => exact advanceFrom_atRest _ _ _ hs
    | ldbeg => rfl
    | ldword v _ hv =>
      have happ : atRest (s.words ++ [v]) = true := by simpa [atRest, hv] using hs
      exact happ
    | ldend => exact seedIfEmpty_atRest hs

/-- Every step keeps R21. -/
theorem step_atRest {s t : State} (hs : atRest s.words = true) (h : step s = .next t) : atRest t.words = true :=
  step_keeps (P := fun s => atRest s.words = true) (fun _ _ hs => hs) (fun _ _ => rfl) (fun _ _ hs => hs)
    (fun _ _ _ _ => exec_atRest) hs h

/-- Every command of a legal build keeps R22. -/
theorem exec_countInRange {i : Instr} {s t : State} (hc : s.cfg.wf = true) (hs : CountInRange s)
    (h : exec i s = .next t) : CountInRange t := by
  obtain ⟨hle, hpos⟩ := hs
  have hcap := wf_maxw hc
  obtain ⟨c, rfl⟩ | ⟨u, d, hw, rfl⟩ := exec_next h
  · exact ⟨hle, hpos⟩
  · cases hw with
    | nothing | hinc => exact ⟨hle, hpos⟩
    | adv _ _ hfit | step _ _ hfit =>
      exact ⟨hfit, fun hm => (hpos hm).trans (length_le_advance s.words)⟩
    | ldbeg => exact ⟨Nat.zero_le _, nofun⟩
    | ldword v hm _ hne =>
      have hlen : (s.words ++ [v]).length ≤ s.cfg.maxw := by
        rw [List.length_append, List.length_singleton]; omega
      exact ⟨hlen, fun hi => absurd (hm.symm.trans hi) nofun⟩
    | ldend =>
      have hlen : 1 ≤ (seedIfEmpty s.words).length ∧ (seedIfEmpty s.words).length ≤ s.cfg.maxw := by
        rw [seedIfEmpty_length]; split <;> omega
      exact ⟨hlen.2, fun _ => hlen.1⟩

/-- Every step keeps R22. -/
theorem step_countInRange {s t : State} (hs : CountInRange s) (h : step s = .next t) : CountInRange t :=
  step_keeps (P := CountInRange) (fun _ _ hs => hs) (fun _ hc => ⟨(wf_maxw hc).1, fun _ => le_rfl⟩)
    (fun _ _ hs => hs) (fun _ _ _ => exec_countInRange) hs h

/-- No step changes the build (R7). -/
theorem step_cfg {s t : State} (h : step s = .next t) : t.cfg = s.cfg := by
  obtain ⟨-, ⟨-, rfl⟩ | ⟨c, rest, -, ⟨i, -, hi⟩ | ⟨-, rfl⟩⟩ | ⟨x, rest, -, -, rfl⟩⟩ := step_cases h
  · rfl
  · exact (exec_cfg hi).1
  · rfl
  · rfl

/-- In a legal build the register shows the count exactly (R22). -/
theorem nw_toNat {s : State} (hc : s.cfg.wf = true) (hs : CountInRange s) : s.nw.toNat = s.words.length := by
  obtain ⟨hle, -⟩ := hs
  have hcap := wf_maxw hc
  exact ofNat_toNat (by omega)

/-- Settles O40: the advance keeps R21, LDWORD checks it, and no other command writes a word but the seed 3. -/
theorem wordsStayBelowTheMarker : Obligations.WordsStayBelowTheMarker := by
  unfold Obligations.WordsStayBelowTheMarker
  refine ⟨fun i s t => exec_atRest, fun s t hs h j w hw => ?_⟩
  have hlt := (atRest_iff _).1 (step_atRest hs h) w (List.mem_of_getElem? hw)
  rw [marker_iff, decide_eq_false (by omega)]

/-- Settles O41: every step keeps `CountInRange`, and MAXW of a legal build fits the register. -/
theorem wordCountStaysInRange : Obligations.WordCountStaysInRange := by
  unfold Obligations.WordCountStaysInRange
  intro s t hs h
  have ht := step_countInRange hs h
  have hnw : t.nw.toNat = t.words.length := nw_toNat (by rw [step_cfg h]; exact (step_cases h).1) ht
  refine ⟨ht, hnw, fun h0 => mode_ne_idle.1 fun hm => ?_⟩
  have hpos := ht.2 hm
  rw [← hnw, h0] at hpos
  exact absurd hpos (by decide)

/-- The words after an ADV or a STEP: as they were, or advanced. -/
theorem exec_advance_words {i : Instr} {s t : State} (hi : i = .adv ∨ i = .step) (h : exec i s = .next t) :
    t.words = s.words ∨ t.words = advance s.words := by
  obtain ⟨c, rfl⟩ | ⟨u, d, hw, rfl⟩ := exec_next h
  · exact .inl rfl
  · cases hw with
    | nothing => exact .inl rfl
    | adv | step => exact .inr rfl
    | hinc | ldbeg | ldword | ldend => simp at hi

/-- NW after an ADV or a STEP (R24). -/
theorem exec_advance_length {i : Instr} {s t : State} (hi : i = .adv ∨ i = .step) (h : exec i s = .next t) :
    t.words.length = s.words.length ∨ t.words.length = s.words.length + 1 := by
  obtain hw | hw := exec_advance_words hi h
  · exact .inl (congrArg List.length hw)
  · rw [hw]
    exact advance_len s.words

/-- NW after an LDWORD: 1 more on success (R24). -/
theorem exec_ldword_length {s t : State} {v d : Word} {err : Bool} (h : exec (.ldword v) s = .next t)
    (hr : t.rsp = some ⟨d, err⟩) : t.words.length = if err then s.words.length else s.words.length + 1 := by
  obtain ⟨c, rfl⟩ | ⟨u, d', hw, rfl⟩ := exec_next h
  · cases hr; rfl
  · cases hr
    cases hw with
    | nothing _ hq => exact hq.elim nofun nofun
    | ldword => exact List.length_append

/-- NW after an LDEND: an empty load becomes the seed (R24, R152). -/
theorem exec_ldend_length {s t : State} (h : exec .ldend s = .next t) :
    t.words.length = if s.mode = .loading ∧ s.words.length = 0 then 1 else s.words.length := by
  cases hm : s.mode with
  | idle =>
    rw [exec_ldend_idle hm] at h
    cases raise_eq h
    simp
  | loading =>
    rw [exec_ldend_loading hm] at h
    cases respond_eq h
    simpa using seedIfEmpty_length s.words

/-- The commands R24 does not list leave the words. -/
theorem exec_words_of_unlisted {i : Instr} {s t : State} (hadv : i ≠ .adv) (hstep : i ≠ .step)
    (hldbeg : ∀ c, i ≠ .ldbeg c) (hldword : ∀ v, i ≠ .ldword v) (hldend : i ≠ .ldend) (h : exec i s = .next t) :
    t.words = s.words := by
  obtain ⟨c, rfl⟩ | ⟨u, d, hw, rfl⟩ := exec_next h
  · rfl
  · cases hw with
    | nothing | hinc => rfl
    | adv => exact absurd rfl hadv
    | step => exact absurd rfl hstep
    | ldbeg c => exact absurd rfl (hldbeg c)
    | ldword v => exact absurd rfl (hldword v)
    | ldend => exact absurd rfl hldend

/-- No command but LDBEG lowers NW. -/
theorem exec_length_le {i : Instr} {s t : State} (hi : ∀ c, i ≠ .ldbeg c) (h : exec i s = .next t) :
    s.words.length ≤ t.words.length := by
  obtain ⟨c, rfl⟩ | ⟨u, d, hw, rfl⟩ := exec_next h
  · exact le_rfl
  · cases hw with
    | nothing | hinc => exact le_rfl
    | adv | step => exact length_le_advance s.words
    | ldbeg c => exact absurd rfl (hi c)
    | ldword v => exact (List.sublist_append_left s.words [v]).length_le
    | ldend =>
      change s.words.length ≤ (seedIfEmpty s.words).length
      rw [seedIfEmpty_length]; split <;> omega

/-- Settles O42: one lemma per kind of command, and the reset state. -/
theorem wordCountChangesOnlyAsListed : Obligations.WordCountChangesOnlyAsListed := by
  unfold Obligations.WordCountChangesOnlyAsListed
  refine ⟨fun s t h => ?_, fun c s t h => ?_, fun v d s t err => exec_ldword_length, fun s t => exec_ldend_length,
    fun i s t h1 h2 h3 h4 h5 h => ?_, fun s t x rest h hp hx => ?_, fun i s t => exec_length_le⟩
  · obtain h | h := h
    · exact exec_advance_length (.inl rfl) h
    · exact exec_advance_length (.inr rfl) h
  · cases respond_eq h; rfl
  · exact congrArg List.length (exec_words_of_unlisted h1 h2 h3 h4 h5 h)
  · cases step_of_reset h hp hx; rfl

end Sys2Proof.Machine
end

section
/-! PROOFS. The cursor, the counters and the mode (10_state.md sections 3 to 5): R28, R30, R31. -/

namespace Sys2Proof.Machine

/-- A fault does not read the cursor. -/
theorem raise_setCur {f : FaultCode} {s t : State} (c : Word) (h : raise f s = .next t) :
    raise f (s.setCur c) = .next (t.setCur c) := by
  cases raise_eq h; rfl

/-- A response does not read the cursor. -/
theorem respond_setCur {v : Word} {s t : State} (c : Word) (h : respond v s = .next t) :
    respond v (s.setCur c) = .next (t.setCur c) := by
  cases respond_eq h; rfl

/-- ADV does the same whatever the cursor holds (R28). -/
theorem execAdv_setCur {s t : State} (c : Word) (h : execAdv s = .next t) :
    execAdv (s.setCur c) = .next (t.setCur c) := by
  unfold execAdv at h
  split_ifs at h with hm ha hl
  · simp [execAdv, hm, raise_setCur c h]
  · simp [execAdv, hm, ha, hl, raise_setCur c h]
  · have hr : respond _ ((s.setCur c).setWords (advance s.words)) = .next (t.setCur c) := respond_setCur c h
    simp [execAdv, hm, ha, hl, hr]

/-- BIN does the same whatever the cursor holds (R28). -/
theorem execBin_setCur {n : Word} {s t : State} (c : Word) (h : execBin n s = .next t) :
    execBin n (s.setCur c) = .next (t.setCur c) := by
  unfold execBin at h
  split_ifs at h with hm
  · simp [execBin, hm, raise_setCur c h]
  · simp [execBin, hm, respond_setCur c h]

/-- HINC does the same whatever the cursor holds (R28). -/
theorem execHinc_setCur {k : Word} {s t : State} (c : Word) (h : execHinc k s = .next t) :
    execHinc k (s.setCur c) = .next (t.setCur c) := by
  unfold execHinc at h
  split_ifs at h with hm hk hc
  · simp [execHinc, hm, raise_setCur c h]
  · simp [execHinc, hm, hk, raise_setCur c h]
  · simp [execHinc, hm, hk, hc, raise_setCur c h]
  · have hr : respond _ ((s.setCur c).incCounter k.toNat) = .next (t.setCur c) := respond_setCur c h
    simp [execHinc, hm, hk, hc, hr]

/-- The cursor after a command (R28). -/
theorem exec_cur {i : Instr} {s t : State} (h : exec i s = .next t) :
    t.cur = s.cur ∨ i = .ldbeg t.cur ∨ (i = .step ∧ t.cur.toNat = s.cur.toNat + 1) := by
  obtain ⟨c, rfl⟩ | ⟨u, d, hw, rfl⟩ := exec_next h
  · exact .inl rfl
  · cases hw with
    | nothing | adv | hinc | ldword | ldend => exact .inl rfl
    | step _ _ _ _ hcur => exact .inr (.inr ⟨rfl, add_one_toNat hcur⟩)
    | ldbeg => exact .inr (.inl rfl)

/-- Settles O43: the cursor after each command, after reset, and that the three compute commands do not read it. -/
theorem cursorChangesOnlyAsListed : Obligations.CursorChangesOnlyAsListed := by
  unfold Obligations.CursorChangesOnlyAsListed
  refine ⟨fun i s t => exec_cur, fun c s t h => ?_, fun s t d h hr => ?_, fun s t x rest h hp hx => ?_,
    fun i s t c hi h => ?_⟩
  · cases respond_eq h; rfl
  · obtain ⟨u, hw, rfl⟩ := exec_success h hr
    cases hw with
    | nothing _ hq => exact hq.elim nofun nofun
    | step _ _ _ _ hcur => exact add_one_toNat hcur
  · cases step_of_reset h hp hx; rfl
  · obtain rfl | ⟨n, rfl⟩ | ⟨k, rfl⟩ := hi
    · exact execAdv_setCur c h
    · exact execBin_setCur c h
    · exact execHinc_setCur c h

/-- From `s` to `t` one counter has grown by 1, without wrapping, and no other has changed. -/
def OneCounterUp (s t : State) : Prop :=
  ∃ k, (t.counter k).toNat = (s.counter k).toNat + 1 ∧ ∀ j, j ≠ k → t.counter j = s.counter j

/-- `Increment` of a counter that is not at its maximum. -/
theorem oneCounterUp_incCounter {s : State} {k : Nat} (h : s.counter k ≠ maxWord) :
    OneCounterUp s (s.incCounter k) :=
  ⟨k, by rw [counter_inc s k k h, if_pos rfl, add_one_toNat h], fun j hj => by rw [counter_inc s k j h, if_neg hj]⟩

/-- A HINC or a STEP that succeeds increments one counter (R30). -/
theorem Writes.oneCounterUp {i : Instr} {s u : State} (hi : (∃ k, i = .hinc k) ∨ i = .step) (hw : Writes s i u) :
    OneCounterUp s u := by
  cases hw with
  | hinc k _ _ hc => exact oneCounterUp_incCounter hc
  | step _ _ _ hc => exact oneCounterUp_incCounter hc
  | nothing _ hq => obtain ⟨k, rfl⟩ | rfl := hi <;> exact hq.elim nofun nofun
  | adv | ldbeg | ldword | ldend => simp at hi

/-- The histogram after a command: unchanged, or a HINC or a STEP has incremented one counter (R30). -/
theorem exec_hist {i : Instr} {s t : State} (h : exec i s = .next t) :
    t.hist = s.hist ∨ (((∃ k, i = .hinc k) ∨ i = .step) ∧ OneCounterUp s t) := by
  obtain ⟨c, rfl⟩ | ⟨u, d, hw, rfl⟩ := exec_next h
  · exact .inl rfl
  · cases hw with
    | nothing | adv | ldbeg | ldword | ldend => exact .inl rfl
    | hinc k _ _ hc => exact .inr ⟨.inl ⟨k, rfl⟩, oneCounterUp_incCounter hc⟩
    | step _ _ _ hc => exact .inr ⟨.inr rfl, oneCounterUp_incCounter hc⟩

/-- No command lowers a counter (R30). -/
theorem exec_counter_le {i : Instr} {s t : State} (h : exec i s = .next t) (k : Nat) :
    (s.counter k).toNat ≤ (t.counter k).toNat := by
  obtain heq | ⟨-, j, hj, hother⟩ := exec_hist h
  · rw [State.counter, State.counter, heq]
  · by_cases hk : k = j
    · subst hk; omega
    · rw [hother k hk]

/-- Settles O44: what each command does to the histogram, and the reset state; a step that takes no reset runs one
command or records a fault, so it lowers no counter. -/
theorem countersOnlyEverIncrement : Obligations.CountersOnlyEverIncrement := by
  unfold Obligations.CountersOnlyEverIncrement
  refine ⟨fun i s t => exec_hist, fun i s t d hi h hr => ?_, fun s t x rest h hp hx k => ?_, fun s t h hn k => ?_,
    fun i s t hi h => ?_⟩
  · obtain ⟨u, hw, rfl⟩ := exec_success h hr
    exact (hw.oneCounterUp hi : OneCounterUp s u)
  · cases step_of_reset h hp hx; rfl
  · obtain rfl | ⟨rest, ⟨i, hi⟩ | rfl⟩ := step_of_not_reset h hn
    · exact le_rfl
    · exact exec_counter_le hi k
    · exact le_rfl
  · obtain heq | ⟨hinc, -⟩ := exec_hist h
    · exact heq
    · obtain ⟨c, rfl⟩ | ⟨v, rfl⟩ | rfl := hi <;> simp at hinc

/-- The mode after a command (R31). -/
theorem exec_mode {i : Instr} {s t : State} (h : exec i s = .next t) :
    t.mode = s.mode ∨ ((∃ c, i = .ldbeg c) ∧ t.mode = .loading) ∨
      (i = .ldend ∧ s.mode = .loading ∧ t.mode = .idle) := by
  obtain ⟨c, rfl⟩ | ⟨u, d, hw, rfl⟩ := exec_next h
  · exact .inl rfl
  · cases hw with
    | nothing | adv | hinc | step | ldword => exact .inl rfl
    | ldbeg c => exact .inr (.inl ⟨⟨c, rfl⟩, rfl⟩)
    | ldend hm => exact .inr (.inr ⟨rfl, hm, rfl⟩)

/-- Settles O45: the mode after each command and after reset, and LDEND in each of the two modes. -/
theorem modeChangesOnlyAsListed : Obligations.ModeChangesOnlyAsListed := by
  unfold Obligations.ModeChangesOnlyAsListed
  refine ⟨fun i s t => exec_mode, fun c s t h => ?_, fun s t h => ?_, fun s t x rest h hp hx => ?_,
    status_loadingBit⟩
  · cases respond_eq h; rfl
  · cases hm : s.mode with
    | idle =>
      rw [exec_ldend_idle hm] at h
      cases raise_eq h
      exact ⟨hm, fun _ => rfl⟩
    | loading =>
      rw [exec_ldend_loading hm] at h
      cases respond_eq h
      exact ⟨rfl, nofun⟩
  · cases step_of_reset h hp hx; rfl

end Sys2Proof.Machine
end

section
/-! PROOFS. The top word and the length of the value (10_state.md section 2): R25, R26. -/

namespace Sys2Proof.Machine

/-- There is a top word and it is not 0 (R25). -/
def TopWordNonzero (ws : List Word) : Prop := ∃ w, ws.getLast? = some w ∧ w ≠ 0

/-- A store at rest has a top word of 0 only when its value fits in one word less. -/
theorem topWordNonzero_of_val {ws : List Word} (ha : atRest ws = true) (hne : ws ≠ [])
    (hv : 2 ^ (63 * (ws.length - 1)) ≤ val ws) : TopWordNonzero ws := by
  refine ⟨_, List.getLast?_eq_getLast_of_ne_nil hne, fun h0 => ?_⟩
  have hsplit : ws.dropLast ++ [0#64] = ws := by
    rw [← List.dropLast_append_getLast hne, h0]; simp
  have hrest : atRest ws.dropLast = true :=
    (atRest_iff _).2 fun w hw => (atRest_iff ws).1 ha w (List.mem_of_mem_dropLast hw)
  have hval : val ws = val ws.dropLast := by
    conv_lhs => rw [← hsplit]
    simp [val_append, val]
  have hlt := val_lt _ hrest
  rw [← hval, List.length_dropLast] at hlt
  omega

/-- The advance keeps the top word from being 0: an appended word is 1 or 2, and with none appended the value, which
has tripled, still needs every word. -/
theorem topWordNonzero_advance {ws : List Word} (ha : atRest ws = true) (ht : TopWordNonzero ws) :
    TopWordNonzero (advance ws) := by
  obtain hlen | ⟨x, -, hlast, hx⟩ := advanceFrom_cases ws false false
  · obtain ⟨w, hw, hw0⟩ := ht
    have hlen : (advance ws).length = ws.length := hlen
    have hpos : ws ≠ [] := by rintro rfl; cases hw
    refine topWordNonzero_of_val (advanceFrom_atRest _ _ _ ha) ?_ ?_
    · rwa [← List.length_pos_iff_ne_nil, hlen, List.length_pos_iff_ne_nil]
    · calc 2 ^ (63 * ((advance ws).length - 1)) = 2 ^ (63 * (ws.length - 1)) := by rw [hlen]
        _ ≤ val ws := val_top ws w hw hw0
        _ ≤ 3 * val ws := by omega
        _ = val (advance ws) := (advanceFrom_val ws false false ha).symm
  · refine ⟨x, hlast, ?_⟩
    obtain rfl | rfl := hx <;> decide

/-- A store at rest whose top word is not 0 has as many words as its value has 63-bit digits (R26). -/
theorem length_eq_size_val {ws : List Word} (ha : atRest ws = true) (ht : TopWordNonzero ws) :
    ws.length = (Nat.size (val ws) + 62) / 63 := by
  obtain ⟨w, hw, hw0⟩ := ht
  have hpos : 0 < ws.length := List.length_pos_iff_ne_nil.2 (by rintro rfl; cases hw)
  have hlo : 63 * (ws.length - 1) < Nat.size (val ws) := Nat.lt_size.2 (val_top ws w hw hw0)
  have hhi : Nat.size (val ws) ≤ 63 * ws.length := Nat.size_le.2 (val_lt ws ha)
  omega

/-- A run of ADV and STEP commands from reset ends with a store at rest whose top word is not 0. -/
theorem run_from_reset_topWordNonzero {cfg : Config} {is : List Instr} {t : State} (hc : cfg.wf = true)
    (his : ∀ i ∈ is, i = .adv ∨ i = .step) (h : runFor is.length ((State.resetWith cfg).given is) = .next t) :
    atRest t.words = true ∧ TopWordNonzero t.words := by
  refine runFor_given_keeps (P := fun s => atRest s.words = true ∧ TopWordNonzero s.words) (fun _ _ hs => hs)
    (fun i hi s t hs he => ⟨exec_atRest hs.1 he, ?_⟩) (s := State.resetWith cfg) hc
    ⟨rfl, 3#64, rfl, by decide⟩ h
  obtain hw | hw := exec_advance_words (his i hi) he
  · rw [hw]; exact hs.2
  · rw [hw]; exact topWordNonzero_advance hs.1 hs.2

/-- Settles O52: the invariant of `run_from_reset_topWordNonzero`, and a load of a word 0 into any load with room,
which LDEND keeps. -/
theorem topWordIsNeverZeroWithoutALoad : Obligations.TopWordIsNeverZeroWithoutALoad := by
  unfold Obligations.TopWordIsNeverZeroWithoutALoad
  refine ⟨fun cfg is t hc his h => (run_from_reset_topWordNonzero hc his h).2, fun s hm hl => ?_⟩
  refine ⟨_, _, exec_ldword_room hm (by decide) hl, exec_ldend_loading hm, rfl, ?_⟩
  cases hws : s.words <;> simp [seedIfEmpty]

/-- Settles O53: such a run ends with a store at rest whose top word is not 0, and that fixes its length. -/
theorem wordCountIsTheValuesLength : Obligations.WordCountIsTheValuesLength := by
  unfold Obligations.WordCountIsTheValuesLength
  intro cfg is t hc his h
  obtain ⟨ha, ht⟩ := run_from_reset_topWordNonzero hc his h
  exact length_eq_size_val ha ht

end Sys2Proof.Machine
end

section
/-! PROOFS. The decoder on the words outside the table of R72, and what a step does with one. -/

namespace Sys2Proof.Machine

/-- An OP outside the table of R72, by the four ranges of R75. -/
def OpUnassigned (op : BitVec 8) : Prop :=
  (0x05 ≤ op.toNat ∧ op.toNat ≤ 0x0F) ∨ (0x13 ≤ op.toNat ∧ op.toNat ≤ 0x1F) ∨
    (0x24 ≤ op.toNat ∧ op.toNat ≤ 0x2F) ∨ (0x32 ≤ op.toNat ∧ op.toNat ≤ 0xFF)

/-- The decoder answers a command only on that command's own opcode. -/
theorem opcodeOf_of_decodeOp {op : BitVec 8} {opa : Word} {i : Instr} (h : decodeOp op opa = some i) :
    opcodeOf i = op := by
  unfold decodeOp at h
  split at h <;> cases h <;> exact BitVec.eq_of_toNat_eq (Eq.symm ‹_›)

/-- No command has an opcode in the ranges of R75. -/
theorem not_opUnassigned_opcodeOf (i : Instr) : ¬ OpUnassigned (opcodeOf i) := by
  unfold OpUnassigned
  cases i <;> simp [opcodeOf]

/-- An unassigned OP decodes to no command, since a command it decoded to would have that opcode. -/
theorem decodeOp_unassigned {op : BitVec 8} (hop : OpUnassigned op) (opa : Word) : decodeOp op opa = none := by
  cases h : decodeOp op opa with
  | none => rfl
  | some i => exact absurd (opcodeOf_of_decodeOp h ▸ hop) (not_opUnassigned_opcodeOf i)

/-- The decoder rejects every word with a non-zero reserved byte. -/
theorem decode_reservedByte {c : Command} (h : rsvField c.cmd ≠ 0#8) : decode c = .illegal .reservedByte := by
  simp [decode, h]

/-- The decoder rejects every word with an unassigned OP, whatever its reserved byte. -/
theorem decode_unassigned {c : Command} (h : OpUnassigned (opField c.cmd)) : ∃ w, decode c = .illegal w := by
  by_cases hr : rsvField c.cmd = 0#8
  · exact ⟨.unassignedOp, by simp [decode, hr, decodeOp_unassigned h]⟩
  · exact ⟨_, decode_reservedByte hr⟩

/-- A step of a legal build takes the transaction in front of the host's inputs. -/
theorem step_command {s : State} {c : Command} {rest : List HostInput} (hc : s.cfg.wf = true)
    (hp : s.pending = .command c :: rest) : step s = runCommand c (s.setPending rest) := by
  unfold step
  rw [if_pos hc, hp]
  rfl

/-- A word that the decoder rejects raises ILLEGAL_CMD, for either reason and in either mode. -/
theorem runCommand_illegal {c : Command} {w : IllegalWord} (h : decode c = .illegal w) (s : State) :
    runCommand c s = raise .illegalCmd s := by
  simp only [runCommand, h]

/-- Settles O4: the decoder rejects a word of either kind, and the step that takes a rejected word raises ILLEGAL_CMD
on the state without that input. -/
theorem illegalWordRaisesIllegalCmd : Obligations.IllegalWordRaisesIllegalCmd := by
  unfold Obligations.IllegalWordRaisesIllegalCmd
  intro s c rest hc hp hbad
  have hill : ∃ w, decode c = .illegal w := by
    obtain hrsv | hop := hbad
    · exact ⟨_, decode_reservedByte hrsv⟩
    · exact decode_unassigned hop
  obtain ⟨w, hw⟩ := hill
  rw [step_command hc hp, runCommand_illegal hw]
  rfl

end Sys2Proof.Machine
end

section
/-! PROOFS. The advance (40_bigfraction_advance.md): one word's arithmetic, the product law, when a word is appended,
and ADV. -/

namespace Sys2Proof.Machine

/-- Doubling a word below 2^63 loses no bit (R103). -/
theorem toNat_double {w : Word} (h : w.toNat < 2 ^ 63) : (w <<< 1).toNat = 2 * w.toNat := by
  rw [BitVec.toNat_shiftLeft, Nat.shiftLeft_eq]
  omega

/-- Two words below 2^63 and a flag add up without a wrap (R103). -/
theorem toNat_add_add_flagWord {v w : Word} (c : Bool) (hv : v.toNat < 2 ^ 63) (hw : w.toNat < 2 ^ 63) :
    (v + w + flagWord c).toNat = v.toNat + w.toNat + c.toNat := by
  have hc := c.toNat_le
  rw [BitVec.toNat_add, BitVec.toNat_add, flagWord_toNat]
  omega

/-- The value of a store at rest divided by the weight of its top word is that word. -/
theorem val_div_topWeight {ws : List Word} {w : Word} {n : Nat} (ha : atRest ws = true) (hlen : ws.length = n + 1)
    (hlast : ws.getLast? = some w) : val ws / 2 ^ (63 * n) = w.toNat := by
  have hsplit : ws.dropLast ++ [w] = ws := List.dropLast_append_getLast? w hlast
  have hlow : atRest ws.dropLast = true :=
    (atRest_iff _).2 fun x hx => (atRest_iff ws).1 ha x (List.mem_of_mem_dropLast hx)
  have hn : ws.dropLast.length = n := by rw [List.length_dropLast, hlen, Nat.add_sub_cancel]
  have hval : val ws = val ws.dropLast + 2 ^ (63 * n) * w.toNat := by
    rw [← hn, ← hsplit, val_append, List.dropLast_concat]
    rfl
  have hlt : val ws.dropLast < 2 ^ (63 * n) := hn ▸ val_lt _ hlow
  rw [hval, Nat.add_mul_div_left _ _ (Nat.two_pow_pos _), Nat.div_eq_of_lt hlt, Nat.zero_add]

/-- Settles O17: the product law `advanceFrom_val` with both flags 0. -/
theorem advanceTriplesTheValue : Obligations.AdvanceTriplesTheValue :=
  fun ws ha => advanceFrom_val ws false false ha

/-- With no word appended the product fits in the words there are (R104). -/
theorem triple_val_lt_of_kept {ws : List Word} (ha : atRest ws = true) (hlen : (advance ws).length = ws.length) :
    3 * val ws < 2 ^ (63 * ws.length) :=
  calc 3 * val ws = val (advance ws) := (advanceTriplesTheValue ws ha).symm
    _ < 2 ^ (63 * (advance ws).length) := val_lt _ (advanceFrom_atRest _ _ _ ha)
    _ = 2 ^ (63 * ws.length) := by rw [hlen]

/-- An appended word is the quotient of the product by the weight of its place (R104). -/
theorem triple_val_div_of_appended {ws : List Word} {x : Word} (ha : atRest ws = true)
    (hlen : (advance ws).length = ws.length + 1) (hlast : (advance ws).getLast? = some x) :
    3 * val ws / 2 ^ (63 * ws.length) = x.toNat := by
  rw [← advanceTriplesTheValue ws ha]
  exact val_div_topWeight (advanceFrom_atRest _ _ _ ha) hlen hlast

/-- Settles O18: by `splitMarker_spec` the doubled word is below 2^63 once its marker is taken off, so the sum of step
2c has three small terms; the words and the appended one are those of `advanceFrom_atRest` and `advanceFrom_cases`. -/
theorem advanceNeverOverflowsAWord : Obligations.AdvanceNeverOverflowsAWord := by
  unfold Obligations.AdvanceNeverOverflowsAWord
  refine ⟨fun w shifted carry hw => ?_, fun ws ha => ⟨(atRest_iff _).1 (advanceFrom_atRest _ _ _ ha), ?_⟩⟩
  · have hdoubled := (splitMarker_spec ((w <<< 1) + flagWord shifted)).2
    exact ⟨toNat_double hw, hdoubled, toNat_add_add_flagWord carry hw hdoubled, (splitMarker_spec _).2⟩
  · obtain hkept | ⟨x, hlen, hlast, rfl | rfl⟩ := advanceFrom_cases ws false false
    · exact .inl hkept
    · exact .inr ⟨hlen, .inl hlast⟩
    · exact .inr ⟨hlen, .inr hlast⟩

/-- Settles O19: with no word appended the product is below 2^(63*NW), and an appended word, 1 or 2, is the quotient,
so the product is not. -/
theorem advanceGrowsExactlyWhenNeeded : Obligations.AdvanceGrowsExactlyWhenNeeded := by
  unfold Obligations.AdvanceGrowsExactlyWhenNeeded
  intro ws ha
  obtain hkept | ⟨x, hlen, hlast, hx⟩ := advanceFrom_cases ws false false
  · have hlt := triple_val_lt_of_kept ha hkept
    exact ⟨fun _ => hkept, fun hge => absurd hlt hge.not_gt⟩
  · have hquot := triple_val_div_of_appended ha hlen hlast
    have hx12 : x.toNat = 1 ∨ x.toNat = 2 := hx.imp (congrArg BitVec.toNat) (congrArg BitVec.toNat)
    refine ⟨fun hlt => ?_, fun _ => ⟨hlen, ?_, hquot ▸ hx12⟩⟩
    · rw [Nat.div_eq_of_lt hlt] at hquot
      omega
    · rw [hquot, BitVec.ofNat_toNat, BitVec.setWidth_eq]
      exact hlast

/-- The command word of ADV, whatever its unread operand (R72, R73). -/
theorem decode_adv (v : Word) : decode ⟨0x0001#16, v⟩ = .command .adv := by
  simp [decode, decodeOp, rsvField, opField]

/-- ADV in a load (R100). -/
theorem exec_adv_loading {s : State} (hm : s.mode = .loading) : exec .adv s = raise .seqErr s := by
  simp [exec, execAdv, hm]

/-- ADV of a store whose advance has room (R100). -/
theorem exec_adv_fits {s : State} (hm : s.mode = .idle) (ha : atRest s.words = true)
    (hfit : (advance s.words).length ≤ s.cfg.maxw) :
    exec .adv s = respond (countWord (advance s.words).length) (s.setWords (advance s.words)) := by
  simp [exec, execAdv, hm, ha, Nat.not_lt.2 hfit]

/-- ADV of a store whose advance has no room (R100). -/
theorem exec_adv_capacity {s : State} (hm : s.mode = .idle) (ha : atRest s.words = true)
    (hfull : s.cfg.maxw < (advance s.words).length) : exec .adv s = raise .capacity s := by
  simp [exec, execAdv, hm, ha, hfull]

/-- Settles O16: the three outcomes of ADV, the corner cases computed, and the top word 0 that absorbs the last flags
(`advance_length_append_zero`). -/
theorem advAdvancesTheStore : Obligations.AdvAdvancesTheStore := by
  unfold Obligations.AdvAdvancesTheStore
  exact ⟨decode_adv, fun _ hm => exec_adv_loading hm, fun _ hm ha hfit => exec_adv_fits hm ha hfit,
    fun _ hm ha hfull => exec_adv_capacity hm ha hfull, by decide, by decide, by decide,
    fun ws ha => advance_length_append_zero ws false false ha⟩

end Sys2Proof.Machine
end

section
/-! PROOFS. The extractor (41_bin_extract.md): the closed form of the window, its bound, its padding below bit 0, and
BIN. -/

namespace Sys2Proof.Machine

/-- The command word of BIN, with its operand (R72, R73). -/
theorem decode_bin (n : Word) : decode ⟨0x0002#16, n⟩ = .command (.bin n) := by
  simp [decode, decodeOp, rsvField, opField]

/-- BIN in IDLE (R120). -/
theorem exec_bin_idle {s : State} (hm : s.mode = .idle) (n : Word) :
    exec (.bin n) s = respond (binValue s.cfg.digits s.words n) s := by
  simp [exec, execBin, hm]

/-- BIN in a load (R120). -/
theorem exec_bin_loading {s : State} (hm : s.mode = .loading) (n : Word) : exec (.bin n) s = raise .seqErr s := by
  simp [exec, execBin, hm]

/-- The mask of R121 as a number. -/
theorem windowMask_toNat {d : Nat} (hd : d ≤ 63) : (windowMask d).toNat = 2 ^ d - 1 := by
  have hle : 2 ^ d ≤ 2 ^ 63 := Nat.pow_le_pow_right Nat.two_pos hd
  exact ofNat_toNat (by omega)

/-- The one-word case of R121 is masked to D bits, on every word. -/
theorem windowInWord_lt {d : Nat} (hd : d ≤ 63) (w : Word) (shift : Nat) :
    (windowInWord d w shift).toNat < 2 ^ d := by
  have hshift : (windowMask d <<< shift).toNat ≤ (windowMask d).toNat * 2 ^ shift := by
    rw [BitVec.toNat_shiftLeft, Nat.shiftLeft_eq]
    exact Nat.mod_le _ _
  have hle : (windowInWord d w shift).toNat ≤ (windowMask d).toNat := by
    rw [windowInWord, BitVec.toNat_ushiftRight, BitVec.toNat_and, Nat.shiftRight_eq_div_pow]
    exact Nat.div_le_of_le_mul (Nat.mul_comm _ _ ▸ Nat.and_le_right.trans hshift)
  have hpos := Nat.two_pow_pos d
  rw [windowMask_toNat hd] at hle
  omega

/-- The upper part of a two-word window: the low D - k bits of the upper word, moved up by k. -/
theorem windowHigh_toNat {d k : Nat} (hd : d ≤ 63) (hk : k ≤ d) (w : Word) :
    (windowHigh d w k).toNat = 2 ^ k * (w.toNat % 2 ^ (d - k)) :=
  calc (windowHigh d w k).toNat = w.toNat * 2 ^ k % 2 ^ 64 % 2 ^ d := by
        rw [windowHigh, BitVec.toNat_and, windowMask_toNat hd, Nat.and_two_pow_sub_one_eq_mod,
          BitVec.toNat_shiftLeft, Nat.shiftLeft_eq]
    _ = 2 ^ k * w.toNat % (2 ^ k * 2 ^ (d - k)) := by
        rw [Nat.mod_mod_of_dvd _ (Nat.pow_dvd_pow 2 (by omega)), Nat.mul_comm, ← Nat.pow_add, Nat.add_sub_cancel' hk]
    _ = 2 ^ k * (w.toNat % 2 ^ (d - k)) := Nat.mul_mod_mul_left _ _ _

/-- The upper part of a two-word window is masked to D bits, on every word. -/
theorem windowHigh_lt {d : Nat} (hd : d ≤ 63) (w : Word) (k : Nat) : (windowHigh d w k).toNat < 2 ^ d := by
  rw [windowHigh, BitVec.toNat_and, windowMask_toNat hd, Nat.and_two_pow_sub_one_eq_mod]
  exact Nat.mod_lt _ (Nat.two_pow_pos d)

/-- The window is below 2^D on every store (R125): each of its parts is masked. -/
theorem binValue_lt {d : Nat} (hd : d ≤ 63) (ws : List Word) (n : Word) : (binValue d ws n).toNat < 2 ^ d := by
  unfold binValue
  dsimp only
  split
  · exact windowInWord_lt hd _ _
  · rw [BitVec.toNat_or]
    refine Nat.or_lt_two_pow (windowHigh_lt hd _ _) ?_
    split
    · exact Nat.two_pow_pos d
    · exact windowInWord_lt hd _ _

/-- A window that reaches below bit 0 is the upper part alone (R122). -/
theorem binValue_below_bit_zero {d : Nat} {n : Word} (hd : d ≤ 63) (hn : n.toNat + 1 < d) (ws : List Word) :
    binValue d ws n = windowHigh d (wordOrZero ws 0) (d - 1 - n.toNat) := by
  have hword : wordNum n = 0 := Nat.div_eq_of_lt (by simp only [dataBits]; omega)
  have hbit : bitNum n = n.toNat := Nat.mod_eq_of_lt (by simp only [dataBits]; omega)
  have hneg : ¬ (0 : Int) ≤ (n.toNat : Int) - ((d : Int) - 1) := by omega
  have hk : (-((n.toNat : Int) - ((d : Int) - 1))).toNat = d - 1 - n.toNat := by omega
  simp only [binValue, hword, hbit, if_neg hneg, hk, if_true, BitVec.or_zero]

/-- Word j is digit j of the value in base 2^63. -/
theorem val_div_mod {ws : List Word} (ha : atRest ws = true) (j : Nat) :
    val ws / 2 ^ (63 * j) % 2 ^ 63 = (wordOrZero ws j).toNat := by
  refine Nat.eq_of_testBit_eq fun i => ?_
  rw [Nat.testBit_mod_two_pow, Nat.testBit_div_two_pow, val_testBit ws ha]
  by_cases hi : i < 63
  · rw [show (i + 63 * j) / 63 = j by omega, show (i + 63 * j) % 63 = i by omega, decide_eq_true hi, Bool.true_and]
    rfl
  · have hlt : (wordOrZero ws j).toNat < 2 ^ i :=
      (wordOrZero_rest ws ha j).trans_le (Nat.pow_le_pow_right Nat.two_pos (by omega))
    rw [decide_eq_false hi, Bool.false_and, Nat.testBit_lt_two_pow hlt]

/-- The low bits of the value are those of word 0. -/
theorem val_mod_two_pow {ws : List Word} (ha : atRest ws = true) {m : Nat} (hm : m ≤ 63) :
    val ws % 2 ^ m = (wordOrZero ws 0).toNat % 2 ^ m := by
  have h0 : val ws % 2 ^ 63 = (wordOrZero ws 0).toNat := by simpa using val_div_mod ha 0
  rw [← h0, Nat.mod_mod_of_dvd _ (Nat.pow_dvd_pow 2 hm)]

/-- Settles O22: bit i of either side is bit n + i - (D - 1) of the value, by `binValue_bit` for the extraction. -/
theorem binValueIsItsClosedForm : Obligations.BinValueIsItsClosedForm := by
  unfold Obligations.BinValueIsItsClosedForm
  intro d ws n hd hd' ha
  refine Nat.eq_of_testBit_eq fun i => ?_
  rw [Nat.testBit_mod_two_pow, Nat.testBit_div_two_pow, Nat.testBit_mul_two_pow, Nat.add_comm i, ← Bool.and_assoc]
  exact binValue_bit d ws n hd hd' ha i

/-- BIN at position 0 (R120). -/
theorem binValue_at_zero {d : Nat} {ws : List Word} (hd : 1 ≤ d) (hd' : d ≤ 63) (ha : atRest ws = true) :
    (binValue d ws 0).toNat = (wordOrZero ws 0).toNat % 2 * 2 ^ (d - 1) :=
  calc (binValue d ws 0).toNat = val ws * 2 ^ (d - 1) / 2 ^ 0 % 2 ^ d := binValueIsItsClosedForm d ws 0 hd hd' ha
    _ = val ws * 2 ^ (d - 1) % (2 ^ 1 * 2 ^ (d - 1)) := by
        rw [Nat.pow_zero, Nat.div_one, ← Nat.pow_add, Nat.add_sub_cancel' hd]
    _ = (wordOrZero ws 0).toNat % 2 * 2 ^ (d - 1) := by
        rw [Nat.mul_mod_mul_right, val_mod_two_pow ha (by omega), Nat.pow_one]

/-- BIN at position D - 1, the lowest window of whole bits (R120). -/
theorem binValue_at_lowest_whole {d : Nat} {ws : List Word} (hd : 1 ≤ d) (hd' : d ≤ 63) (ha : atRest ws = true) :
    (binValue d ws (BitVec.ofNat 64 (d - 1))).toNat = (wordOrZero ws 0).toNat % 2 ^ d := by
  rw [binValueIsItsClosedForm d ws _ hd hd' ha, ofNat_toNat (by omega), Nat.mul_div_cancel _ (Nat.two_pow_pos _),
    val_mod_two_pow ha hd']

/-- BIN above the store (R123). -/
theorem binValue_above_store {d : Nat} {ws : List Word} {n : Word} (hd : 1 ≤ d) (hd' : d ≤ 63)
    (ha : atRest ws = true) (hn : 63 * ws.length + (d - 1) ≤ n.toNat) : binValue d ws n = 0 := by
  have hlt : val ws * 2 ^ (d - 1) < 2 ^ n.toNat :=
    calc val ws * 2 ^ (d - 1) < 2 ^ (63 * ws.length) * 2 ^ (d - 1) :=
          Nat.mul_lt_mul_of_pos_right (val_lt ws ha) (Nat.two_pow_pos _)
      _ = 2 ^ (63 * ws.length + (d - 1)) := (Nat.pow_add _ _ _).symm
      _ ≤ 2 ^ n.toNat := Nat.pow_le_pow_right Nat.two_pos hn
  refine BitVec.eq_of_toNat_eq ?_
  rw [binValueIsItsClosedForm d ws n hd hd' ha, Nat.div_eq_of_lt hlt]
  exact Nat.zero_mod _

/-- BIN of a window of one whole word (R120). -/
theorem binValue_whole_word {ws : List Word} {n : Word} (ha : atRest ws = true) (hn : n.toNat % 63 = 62) :
    binValue 63 ws n = wordOrZero ws (n.toNat / 63) := by
  have hpos : n.toNat = 63 * (n.toNat / 63) + 62 := by omega
  refine BitVec.eq_of_toNat_eq ?_
  calc (binValue 63 ws n).toNat = val ws * 2 ^ 62 / 2 ^ n.toNat % 2 ^ 63 :=
        binValueIsItsClosedForm 63 ws n (by decide) le_rfl ha
    _ = val ws / 2 ^ (63 * (n.toNat / 63)) % 2 ^ 63 := by
        conv_lhs => rw [hpos, Nat.pow_add, Nat.mul_div_mul_right _ _ (Nat.two_pow_pos 62)]
    _ = (wordOrZero ws (n.toNat / 63)).toNat := val_div_mod ha _

/-- BIN of a window of one bit (R120). -/
theorem binValue_one_bit {ws : List Word} (ha : atRest ws = true) (n : Word) :
    (binValue 1 ws n).toNat = val ws / 2 ^ n.toNat % 2 := by
  rw [binValueIsItsClosedForm 1 ws n le_rfl (by decide) ha, Nat.sub_self, Nat.pow_zero, Nat.mul_one, Nat.pow_one]

/-- BIN at position 63 with D = 10: one bit of word 1 and nine bits of word 0 (R120). -/
theorem binValue_across_words {w0 w1 : Word} (ha : atRest [w0, w1] = true) :
    (binValue 10 [w0, w1] 63).toNat = w1.toNat % 2 * 512 + w0.toNat / 2 ^ 54 := by
  have hval : val [w0, w1] = w0.toNat + 2 ^ 63 * w1.toNat := by simp [val, dataBits]
  have hw0 : w0.toNat < 2 ^ 63 := ((atRest_cons _ _).1 ha).1
  rw [binValueIsItsClosedForm 10 _ 63 (by decide) (by decide) ha, hval, show (63 : Word).toNat = 63 from rfl]
  omega

/-- Settles O21: the two outcomes of BIN, and the corner cases from the closed form, one lemma each. -/
theorem binAnswersTheWindow : Obligations.BinAnswersTheWindow := by
  unfold Obligations.BinAnswersTheWindow
  exact ⟨decode_bin, fun s n hm => exec_bin_idle hm n, fun s n hm => exec_bin_loading hm n,
    fun d ws hd hd' ha => ⟨binValue_at_zero hd hd' ha, binValue_at_lowest_whole hd hd' ha,
      fun n => binValue_above_store hd hd' ha⟩,
    fun ws n ha => ⟨binValue_whole_word ha, binValue_one_bit ha n⟩,
    fun w0 w1 => binValue_across_words, by decide⟩

/-- Settles O23: the bound `binValue_lt`, and BIN on a state that differs in its response only. -/
theorem binValueIsBelowBinCountAndPure : Obligations.BinValueIsBelowBinCountAndPure := by
  unfold Obligations.BinValueIsBelowBinCountAndPure
  refine ⟨fun d ws n _ hd' => binValue_lt hd' ws n, fun s t n hm h => ?_⟩
  rw [exec_bin_idle hm] at h
  cases respond_eq h
  exact ⟨rfl, exec_bin_idle hm n⟩

/-- Settles O24: such a window is the low n + 1 bits of word 0 moved up by D - 1 - n. -/
theorem windowIsZeroPaddedBelowBitZero : Obligations.WindowIsZeroPaddedBelowBitZero := by
  unfold Obligations.WindowIsZeroPaddedBelowBitZero
  intro s n hc hm hn
  obtain ⟨-, hd⟩ := wf_digits hc
  have hb : (binValue s.cfg.digits s.words n).toNat =
      2 ^ (s.cfg.digits - 1 - n.toNat) * ((wordOrZero s.words 0).toNat % 2 ^ (n.toNat + 1)) := by
    rw [binValue_below_bit_zero hd hn, windowHigh_toNat hd (by omega),
      show s.cfg.digits - (s.cfg.digits - 1 - n.toNat) = n.toNat + 1 by omega]
  refine ⟨_, exec_bin_idle hm n, ?_, ?_⟩
  · rw [hb, Nat.mul_mod_right]
  · rw [hb, Nat.mul_div_cancel_left _ (Nat.two_pow_pos _)]

end Sys2Proof.Machine
end

section
/-! PROOFS. The histogram (42_histogram.md): HINC, RDHIST, and the sum of the counters along a run. -/

namespace Sys2Proof.Machine

/-- The bin indices of a build (R51). -/
theorem binInRange_iff {cfg : Config} {k : Word} : binInRange cfg k = true ↔ k.toNat < 2 ^ cfg.digits :=
  decide_eq_true_iff

/-- The operands that name no counter (R51). -/
theorem binInRange_eq_false_iff {cfg : Config} {k : Word} : binInRange cfg k = false ↔ 2 ^ cfg.digits ≤ k.toNat :=
  decide_eq_false_iff_not.trans Nat.not_lt

/-- The command word of RDHIST, with its operand (R72, R73). -/
theorem decode_rdhist (k : Word) : decode ⟨0x0023#16, k⟩ = .command (.rdhist k) := by
  simp [decode, decodeOp, rsvField, opField]

/-- RDHIST of a counter of the build, in either mode (R144). -/
theorem exec_rdhist {s : State} {k : Word} (hk : k.toNat < 2 ^ s.cfg.digits) :
    exec (.rdhist k) s = respond (s.counter k.toNat) s := by
  simp [exec, execRdhist, binInRange_iff.2 hk]

/-- RDHIST outside the histogram (R144). -/
theorem exec_rdhist_indexRange {s : State} {k : Word} (hk : 2 ^ s.cfg.digits ≤ k.toNat) :
    exec (.rdhist k) s = raise .indexRange s := by
  simp [exec, execRdhist, binInRange_eq_false_iff.2 hk]

/-- Settles O26: the two outcomes of RDHIST; `respond` writes the response and nothing else. -/
theorem rdhistReadsItsCounter : Obligations.RdhistReadsItsCounter := by
  unfold Obligations.RdhistReadsItsCounter
  exact ⟨decode_rdhist, fun _ _ => exec_rdhist, fun _ _ => exec_rdhist_indexRange⟩

/-- The command word of HINC, with its operand (R72, R73). -/
theorem decode_hinc (k : Word) : decode ⟨0x0003#16, k⟩ = .command (.hinc k) := by
  simp [decode, decodeOp, rsvField, opField]

/-- HINC in a load (R140). -/
theorem exec_hinc_loading {s : State} (hm : s.mode = .loading) (k : Word) : exec (.hinc k) s = raise .seqErr s := by
  simp [exec, execHinc, hm]

/-- HINC outside the histogram (R140). -/
theorem exec_hinc_binRange {s : State} {k : Word} (hm : s.mode = .idle) (hk : 2 ^ s.cfg.digits ≤ k.toNat) :
    exec (.hinc k) s = raise .binRange s := by
  simp [exec, execHinc, hm, binInRange_eq_false_iff.2 hk]

/-- HINC of a counter at its maximum (R140). -/
theorem exec_hinc_counterOvf {s : State} {k : Word} (hm : s.mode = .idle) (hk : k.toNat < 2 ^ s.cfg.digits)
    (hc : s.counter k.toNat = maxWord) : exec (.hinc k) s = raise .counterOvf s := by
  simp [exec, execHinc, hm, binInRange_iff.2 hk, hc]

/-- HINC of a counter below its maximum (R140, R141). -/
theorem exec_hinc_success {s : State} {k : Word} (hm : s.mode = .idle) (hk : k.toNat < 2 ^ s.cfg.digits)
    (hc : s.counter k.toNat ≠ maxWord) :
    exec (.hinc k) s = respond (s.counter k.toNat + 1#64) (s.incCounter k.toNat) := by
  simp [exec, execHinc, hm, binInRange_iff.2 hk, hc]

/-- `Increment` adds 1 to its own counter. -/
theorem counter_incCounter_self {s : State} {k : Nat} (h : s.counter k ≠ maxWord) :
    (s.incCounter k).counter k = s.counter k + 1#64 := by
  rw [counter_inc s k k h, if_pos rfl]

/-- `Increment` leaves every other counter. -/
theorem counter_incCounter_other {s : State} {k j : Nat} (h : s.counter k ≠ maxWord) (hj : j ≠ k) :
    (s.incCounter k).counter j = s.counter j := by
  rw [counter_inc s k j h, if_neg hj]

/-- Settles O25: the three faults of HINC in their order, and its success, which is `Increment` of one counter and
the response. -/
theorem hincAddsOneToItsCounter : Obligations.HincAddsOneToItsCounter := by
  unfold Obligations.HincAddsOneToItsCounter
  refine ⟨decode_hinc, fun s k hm => exec_hinc_loading hm k, fun s k => exec_hinc_binRange,
    fun s k hm hk hc => exec_hinc_counterOvf hm hk ((maxWord_iff _).2 hc), fun s k hm hk hlt => ?_⟩
  have hc : s.counter k.toNat ≠ maxWord := (ne_maxWord_iff _).2 hlt
  refine ⟨_, exec_hinc_success hm hk hc, ?_, fun j => counter_incCounter_other hc, ?_⟩
  · rw [counter_setRsp, counter_incCounter_self hc, add_one_toNat hc]
  · rw [counter_setRsp, counter_incCounter_self hc]
    rfl

/-- The commands that increment a counter when they succeed (R30). -/
def isIncrement : Instr → Bool
  | .hinc _ => true
  | .step => true
  | _ => false

/-- NOP, BIN and the reads increment no counter. -/
theorem isIncrement_of_writes_nothing {i : Instr} (h : readsOnly i = true ∨ i = .nop) : isIncrement i = false := by
  obtain h | rfl := h
  · cases i with
    | hinc | step => cases h
    | _ => rfl
  · rfl

/-- The bin of an iteration is one of a legal build's counters (R125). -/
theorem iterationBin_lt_bins {s : State} (hc : s.cfg.wf = true) : (iterationBin s).toNat < s.cfg.bins :=
  binValue_lt (wf_digits hc).2 s.words s.cur

/-- `Increment` of a counter of the build adds 1 to the sum of all counters. -/
theorem counterTotal_incCounter {s : State} {k : Nat} (hk : k < s.cfg.bins) (h : s.counter k ≠ maxWord) :
    counterTotal (s.incCounter k) = counterTotal s + 1 := by
  have hmem : k ∈ Finset.range s.cfg.bins := Finset.mem_range.2 hk
  have hrest : ∑ j ∈ (Finset.range s.cfg.bins).erase k, ((s.incCounter k).counter j).toNat =
      ∑ j ∈ (Finset.range s.cfg.bins).erase k, (s.counter j).toNat :=
    Finset.sum_congr rfl fun j hj => by rw [counter_incCounter_other h (Finset.ne_of_mem_erase hj)]
  rw [counterTotal, counterTotal, State.incCounter_cfg, ← Finset.add_sum_erase _ _ hmem, hrest,
    counter_incCounter_self h, add_one_toNat h, ← Finset.add_sum_erase _ _ hmem]
  omega

/-- The sum of the counters after the writes of a command: 1 more for HINC and STEP, the same for every other. -/
theorem counterTotal_of_writes {i : Instr} {s u : State} (hc : s.cfg.wf = true) (hw : Writes s i u) :
    counterTotal u = counterTotal s + (if isIncrement i then 1 else 0) := by
  cases hw with
  | nothing _ hq => rw [isIncrement_of_writes_nothing hq]; rfl
  | hinc k _ hk hmax => exact counterTotal_incCounter hk hmax
  | step _ _ _ hmax => exact counterTotal_incCounter (iterationBin_lt_bins hc) hmax
  | adv | ldbeg | ldword | ldend => rfl

/-- A command after which no fault is recorded found none recorded, and did its writes. -/
theorem exec_of_faultBits_zero {i : Instr} {s t : State} (h : exec i s = .next t) (ht : t.faultBits = 0) :
    s.faultBits = 0 ∧ ∃ u d, Writes s i u ∧ t = u.setRsp ⟨d, false⟩ := by
  obtain ⟨hb, -, d, hr⟩ | ⟨c, rfl⟩ := exec_flags h
  · obtain ⟨u, hw, ht'⟩ := exec_success h hr
    exact ⟨hb.symm.trans ht, u, d, hw, ht'⟩
  · exact absurd ht (setFaultBit_ne c s.faultBits)

/-- A run of given commands is the first of them and then a run of the others. -/
theorem runFor_given_cons {i : Instr} {is : List Instr} {s t : State} (hc : s.cfg.wf = true)
    (h : runFor (i :: is).length (s.given (i :: is)) = .next t) :
    ∃ u, exec i (s.given is) = .next u ∧ u.cfg = s.cfg ∧ runFor is.length (u.given is) = .next t := by
  simp only [List.length_cons, runFor, given_step hc] at h
  split at h
  · next u hu =>
    obtain ⟨hcfg, hp⟩ := exec_cfg hu
    exact ⟨u, hu, hcfg, by rwa [given_of_pending hp]⟩
  · cases h
  · cases h

/-- R142 from any state: in a run with no fault recorded at its end, none was recorded before, and the sum of the
counters has grown by the number of HINC and STEP commands. -/
theorem counterTotal_runFor_given {is : List Instr} {s t : State} (hc : s.cfg.wf = true)
    (h : runFor is.length (s.given is) = .next t) (ht : t.faultBits = 0) :
    s.faultBits = 0 ∧ counterTotal t = counterTotal s + is.countP isIncrement := by
  induction is generalizing s with
  | nil => cases h; exact ⟨ht, rfl⟩
  | cons i is ih =>
    obtain ⟨v, hv, hcfg, hrun⟩ := runFor_given_cons hc h
    obtain ⟨hv0, hrest⟩ := ih (hcfg ▸ hc) hrun
    obtain ⟨hs0, u, d, hw, rfl⟩ := exec_of_faultBits_zero hv hv0
    refine ⟨hs0, ?_⟩
    calc counterTotal t = counterTotal u + is.countP isIncrement := hrest
      _ = counterTotal s + (if isIncrement i then 1 else 0) + is.countP isIncrement := by
          rw [counterTotal_of_writes (s := s.given is) hc hw]; rfl
      _ = counterTotal s + (i :: is).countP isIncrement := by
          rw [List.countP_cons, ← Nat.add_assoc, Nat.add_right_comm]

/-- Every counter of the reset state is 0 (R40). -/
theorem counterTotal_resetWith (cfg : Config) : counterTotal (State.resetWith cfg) = 0 :=
  Finset.sum_eq_zero fun _ _ => rfl

/-- Settles O54: `counterTotal_runFor_given` from the reset state, where the sum is 0. -/
theorem counterSumIsTheNumberOfIncrements : Obligations.CounterSumIsTheNumberOfIncrements := by
  unfold Obligations.CounterSumIsTheNumberOfIncrements
  intro cfg is t hc h ht
  calc counterTotal t = counterTotal (State.resetWith cfg) + is.countP isIncrement :=
        (counterTotal_runFor_given hc h ht).2
    _ = is.countP isIncrement := by rw [counterTotal_resetWith, Nat.zero_add]
    _ = (is.filter isIncrement).length := List.countP_eq_length_filter

end Sys2Proof.Machine
end

section
/-! PROOFS. Checkpoint transfer (43_checkpoint_transfer.md): the six commands, the cursor during a load, and what a
`load` sequence leaves for `save` to read. -/

namespace Sys2Proof.Machine

/-- The command word of a row of R72 decodes to its command, with any operand where the row reads none (R73). -/
theorem decode_opcodeOf {i : Instr} {v : Word} (h : (operandOf i).getD v = v) :
    decode ⟨(opcodeOf i).setWidth 16, v⟩ = .command i := by
  cases i with
  | bin x | hinc x | ldbeg x | ldword x | rdword x | rdhist x | rdcfg x =>
    obtain rfl : x = v := h
    simp [decode, decodeOp, rsvField, opField, opcodeOf]
  | nop | adv | step | ldend | rdcur | rdnw | rdstat =>
    simp [decode, decodeOp, rsvField, opField, opcodeOf]

/-- What LDBEG leaves (R150). -/
def State.loadBegun (s : State) (c : Word) : State :=
  (((s.setCur c).setWords []).setMode .loading).setRsp ⟨0#64, false⟩

/-- What a successful LDWORD leaves (R151). -/
def State.wordLoaded (s : State) (v : Word) : State :=
  (s.setWords (s.words ++ [v])).setRsp ⟨countWord (s.words.length + 1), false⟩

/-- What LDEND leaves of a load whose words are `ws` (R152). -/
def State.loadEnded (s : State) (ws : List Word) : State :=
  ((s.setWords (seedIfEmpty ws)).setMode .idle).setRsp ⟨countWord (seedIfEmpty ws).length, false⟩

/-- LDBEG in either mode (R150). -/
theorem exec_ldbeg (s : State) (c : Word) : exec (.ldbeg c) s = .next (s.loadBegun c) := rfl

/-- LDWORD of a word in range into a load with room, as a next state (R151). -/
theorem exec_ldword_next {s : State} {v : Word} (hm : s.mode = .loading) (hv : wordInRange v = true)
    (hl : s.words.length ≠ s.cfg.maxw) : exec (.ldword v) s = .next (s.wordLoaded v) :=
  exec_ldword_room hm hv hl

/-- LDEND at the end of a load, as a next state (R152). -/
theorem exec_ldend_next {s : State} (hm : s.mode = .loading) : exec .ldend s = .next (s.loadEnded s.words) :=
  exec_ldend_loading hm

/-- LDWORD outside a load (R151). -/
theorem exec_ldword_idle {s : State} (hm : s.mode = .idle) (v : Word) : exec (.ldword v) s = raise .seqErr s := by
  simp [exec, execLdword, hm]

/-- LDWORD of a word with its marker bit set (R151). -/
theorem exec_ldword_wordRange {s : State} {v : Word} (hm : s.mode = .loading) (hv : wordInRange v = false) :
    exec (.ldword v) s = raise .wordRange s := by
  simp [exec, execLdword, hm, hv]

/-- LDWORD into a full store (R151). -/
theorem exec_ldword_capacity {s : State} {v : Word} (hm : s.mode = .loading) (hv : wordInRange v = true)
    (hl : s.words.length = s.cfg.maxw) : exec (.ldword v) s = raise .capacity s := by
  simp [exec, execLdword, hm, hv, hl]

/-- RDCUR in either mode (R153). -/
theorem exec_rdcur (s : State) : exec .rdcur s = respond s.cur s := rfl

/-- RDNW in either mode (R154). -/
theorem exec_rdnw (s : State) : exec .rdnw s = respond s.nw s := rfl

/-- RDWORD of a valid word, in either mode (R155). -/
theorem exec_rdword {s : State} {i w : Word} (h : s.words[i.toNat]? = some w) :
    exec (.rdword i) s = respond w s := by
  simp [exec, execRdword, wordAt, h]

/-- RDWORD at or above NW (R155). -/
theorem exec_rdword_indexRange {s : State} {i : Word} (h : s.words.length ≤ i.toNat) :
    exec (.rdword i) s = raise .indexRange s := by
  simp [exec, execRdword, wordAt, List.getElem?_eq_none h]

/-- The words that LDWORD rejects (R73). -/
theorem wordInRange_eq_false_iff (v : Word) : wordInRange v = false ↔ 2 ^ 63 ≤ v.toNat := by
  rw [← Bool.not_eq_true, wordInRange_iff, Nat.not_lt]

/-- STATUS[11:0] is the fault bits and FIRST_CAUSE (R32). -/
theorem status_low_congr {s t : State} (hb : t.faultBits = s.faultBits) (hf : t.firstCause = s.firstCause) :
    t.status.extractLsb' 0 12 = s.status.extractLsb' 0 12 := by
  refine BitVec.eq_of_getLsbD_eq fun k hk => ?_
  simp [status_bit, hk, hb, hf]

/-- Settles O27: `respond` of the started load; its NW is 0, so every index is out of range. -/
theorem ldbegStartsALoad : Obligations.LdbegStartsALoad := by
  unfold Obligations.LdbegStartsALoad
  refine ⟨fun c => decode_opcodeOf (i := .ldbeg c) rfl,
    fun s c => ⟨_, exec_ldbeg s c, rfl, rfl, ?_, ?_, fun i => ?_⟩⟩
  · exact (status_loadingBit _).trans rfl
  · exact status_low_congr rfl rfl
  · exact exec_rdword_indexRange (Nat.zero_le _)

/-- Settles O28: the three faults of LDWORD in their order, and its success. -/
theorem ldwordAppendsOneWord : Obligations.LdwordAppendsOneWord := by
  unfold Obligations.LdwordAppendsOneWord
  exact ⟨fun v => decode_opcodeOf (i := .ldword v) rfl, fun _ v hm => exec_ldword_idle hm v,
    fun _ v hm hv => exec_ldword_wordRange hm ((wordInRange_eq_false_iff v).2 hv),
    fun _ v hm hv hl => exec_ldword_capacity hm ((wordInRange_iff v).2 hv) hl,
    fun _ v hm hv hl => exec_ldword_room hm ((wordInRange_iff v).2 hv) hl⟩

/-- A load with a word in it ends with the words loaded (R152). -/
theorem seedIfEmpty_of_ne_nil {ws : List Word} (h : ws ≠ []) : seedIfEmpty ws = ws := by
  cases ws with
  | nil => exact absurd rfl h
  | cons w ws => rfl

/-- Settles O29: LDEND in each mode; in a load, on an empty store and on one with a word. -/
theorem ldendEndsTheLoad : Obligations.LdendEndsTheLoad := by
  unfold Obligations.LdendEndsTheLoad
  refine ⟨fun v => decode_opcodeOf (i := .ldend) rfl, fun s => exec_ldend_idle, fun s hm hw => ?_, fun s hm hw => ?_,
    fun s t hm h => ?_⟩
  · rw [exec_ldend_loading hm, hw]
    rfl
  · rw [exec_ldend_loading hm, seedIfEmpty_of_ne_nil hw]
    rfl
  · rw [exec_ldend_loading hm] at h
    cases respond_eq h
    exact (status_loadingBit _).trans rfl

/-- Settles O31: in a legal state the register is the length of the store, which is at least 1 in IDLE. -/
theorem rdnwReadsTheWordCount : Obligations.RdnwReadsTheWordCount := by
  unfold Obligations.RdnwReadsTheWordCount
  refine ⟨fun v => decode_opcodeOf (i := .rdnw) rfl, exec_rdnw, fun s hs => ?_⟩
  have hnw := nw_toNat hs.build hs.count
  refine ⟨hnw, fun h0 => ?_⟩
  have hlen : s.words.length = 0 := by rw [← hnw, h0]; rfl
  refine ⟨mode_ne_idle.1 fun hm => ?_, List.length_eq_zero_iff.1 hlen⟩
  have hpos := hs.count.2 hm
  omega

/-- Settles O32: the two outcomes of RDWORD, and R21 for the word that a valid index names. -/
theorem rdwordReadsAValidWord : Obligations.RdwordReadsAValidWord := by
  unfold Obligations.RdwordReadsAValidWord
  exact ⟨fun i => decode_opcodeOf (i := .rdword i) rfl, fun _ _ _ => exec_rdword, fun _ _ => exec_rdword_indexRange,
    fun s i hi => ⟨s.words[i.toNat], List.getElem?_eq_getElem hi,
      fun ha => (atRest_iff _).1 ha _ (List.getElem_mem hi)⟩⟩

/-- During a load every command but LDBEG and LDEND keeps the mode and the cursor. -/
theorem exec_keeps_load {i : Instr} {s t : State} {c : Word} (hi : i ≠ .ldend ∧ ∀ c', i ≠ .ldbeg c')
    (hs : s.mode = .loading ∧ s.cur = c) (h : exec i s = .next t) : t.mode = .loading ∧ t.cur = c := by
  obtain ⟨hldend, hldbeg⟩ := hi
  obtain ⟨hmode, hcur⟩ := hs
  obtain ⟨f, rfl⟩ | ⟨u, d, hw, rfl⟩ := exec_next h
  · exact ⟨hmode, hcur⟩
  · cases hw with
    | nothing | ldword => exact ⟨hmode, hcur⟩
    | adv hm | hinc _ hm | step hm => exact absurd (hmode.symm.trans hm) nofun
    | ldbeg c' => exact absurd rfl (hldbeg c')
    | ldend => exact absurd rfl hldend

/-- A run of at least one step is of a legal build (R6, U8). -/
theorem wf_of_runFor_succ {n : Nat} {s t : State} (h : runFor (n + 1) s = .next t) : s.cfg.wf = true := by
  simp only [runFor] at h
  split at h
  · next u hu => exact (step_cases hu).1
  · cases h
  · cases h

/-- During a load every run of commands without LDBEG and LDEND keeps the mode and the cursor. -/
theorem runFor_given_keeps_load {is : List Instr} {s u : State} {c : Word}
    (his : ∀ i ∈ is, i ≠ .ldend ∧ ∀ c', i ≠ .ldbeg c') (hs : s.mode = .loading ∧ s.cur = c)
    (h : runFor is.length (s.given is) = .next u) : u.mode = .loading ∧ u.cur = c := by
  cases is with
  | nil => cases h; exact hs
  | cons i is =>
    exact runFor_given_keeps (P := fun s => s.mode = .loading ∧ s.cur = c) (fun _ _ hs => hs)
      (fun i hi _ _ => exec_keeps_load (his i hi)) (wf_of_runFor_succ (s := s.given (i :: is)) h) hs h

/-- Settles O30: LDBEG starts a load at its cursor, and the run of commands keeps it (`runFor_given_keeps_load`). -/
theorem rdcurReadsTheCursor : Obligations.RdcurReadsTheCursor := by
  unfold Obligations.RdcurReadsTheCursor
  refine ⟨fun v => decode_opcodeOf (i := .rdcur) rfl, exec_rdcur, fun s t u c is h his hrun => ?_⟩
  cases respond_eq h
  obtain ⟨-, hcur⟩ := runFor_given_keeps_load (c := c) his ⟨rfl, rfl⟩ hrun
  calc exec .rdcur u = respond u.cur u := exec_rdcur u
    _ = respond c u := by rw [hcur]

/-- A run of given commands whose first one answers goes on from its answer. -/
theorem runFor_given_succ {n : Nat} {i : Instr} {is : List Instr} {s u : State} (hc : s.cfg.wf = true)
    (h : exec i (s.given is) = .next u) : runFor (n + 1) (s.given (i :: is)) = runFor n u := by
  simp only [runFor, given_step hc, h]

/-- From any point of a load, LDWORDs that fit and an LDEND append their words and end the load. -/
theorem runFor_ldwords {ws : List Word} {s : State} (hc : s.cfg.wf = true) (hm : s.mode = .loading)
    (hl : s.words.length + ws.length ≤ s.cfg.maxw) (ha : atRest ws = true) :
    runFor (ws.length + 1) (s.given (ws.map .ldword ++ [.ldend])) =
      .next ((s.given []).loadEnded (s.words ++ ws)) := by
  induction ws generalizing s with
  | nil =>
    rw [List.append_nil]
    exact runFor_given_succ hc (exec_ldend_next (s := s.given []) hm)
  | cons w ws ih =>
    obtain ⟨hw, hws⟩ := (atRest_cons w ws).1 ha
    rw [List.length_cons] at hl
    have hroom : s.words.length ≠ s.cfg.maxw := by omega
    have hl' : (s.words ++ [w]).length + ws.length ≤ s.cfg.maxw := by
      rw [List.length_append, List.length_singleton]
      omega
    calc runFor (ws.length + 1 + 1) (s.given (.ldword w :: (ws.map .ldword ++ [.ldend])))
        = runFor (ws.length + 1) ((s.wordLoaded w).given (ws.map .ldword ++ [.ldend])) :=
          runFor_given_succ hc (exec_ldword_next (s := s.given _) hm ((wordInRange_iff w).2 hw) hroom)
      _ = .next (((s.wordLoaded w).given []).loadEnded (s.words ++ [w] ++ ws)) :=
          ih (s := s.wordLoaded w) hc hm hl' hws
      _ = .next ((s.given []).loadEnded (s.words ++ w :: ws)) := by
          rw [← List.append_cons]
          rfl

/-- The `load` sequence (R79) of words that fit, from any state of a legal build. -/
theorem runFor_load {s : State} {c : Word} {ws : List Word} (hc : s.cfg.wf = true) (hl : ws.length ≤ s.cfg.maxw)
    (ha : atRest ws = true) :
    runFor (ws.length + 2) (s.given (Pseudo.load c ws)) = .next (((s.loadBegun c).given []).loadEnded ws) :=
  calc runFor (ws.length + 2) (s.given (Pseudo.load c ws))
      = runFor (ws.length + 1) ((s.loadBegun c).given (ws.map .ldword ++ [.ldend])) :=
        runFor_given_succ hc (exec_ldbeg _ c)
    _ = .next (((s.loadBegun c).given []).loadEnded ws) :=
        runFor_ldwords (s := s.loadBegun c) hc rfl ((Nat.zero_add _).trans_le hl) ha

/-- Settles O57: by `runFor_load` the sequence ends with the cursor and the words given to it, and each read of `save`
answers its part of them; an index below NW is whole in a 64-bit operand. -/
theorem loadThenSaveRoundTrips : Obligations.LoadThenSaveRoundTrips := by
  unfold Obligations.LoadThenSaveRoundTrips
  intro s c ws hc hne hl hlt
  have hloaded := runFor_load (c := c) hc hl ((atRest_iff ws).2 hlt)
  rw [State.loadEnded, seedIfEmpty_of_ne_nil hne] at hloaded
  refine ⟨_, hloaded, rfl, exec_rdcur _, exec_rdnw _, fun i w hi => exec_rdword ?_⟩
  have hcap := wf_maxw hc
  have hlen : i < ws.length := (List.getElem?_eq_some_iff.1 hi).1
  rw [ofNat_toNat (by omega)]
  exact hi

end Sys2Proof.Machine
end

section
/-! PROOFS. STEP (44_driver_step.md section 1): its faults, its writes, and the three commands it stands for. -/

namespace Sys2Proof.Machine

@[simp] theorem State.iterate_words (s : State) : s.iterate.words = advance s.words := rfl
@[simp] theorem State.iterate_cur (s : State) : s.iterate.cur = s.cur + 1#64 := rfl
@[simp] theorem counter_iterate (s : State) (j : Nat) :
    s.iterate.counter j = (s.incCounter (iterationBin s).toNat).counter j := rfl

/-- STEP in a load (R170). -/
theorem exec_step_loading {s : State} (hm : s.mode = .loading) : exec .step s = raise .seqErr s := by
  simp [exec, execStep, hm]

/-- STEP of a store whose advance has no room (R170). -/
theorem exec_step_capacity {s : State} (hm : s.mode = .idle) (ha : atRest s.words = true)
    (hfull : s.cfg.maxw < (advance s.words).length) : exec .step s = raise .capacity s := by
  simp [exec, execStep, hm, ha, hfull]

/-- STEP with the counter of its bin at its maximum (R170). -/
theorem exec_step_counterOvf {s : State} (hm : s.mode = .idle) (ha : atRest s.words = true)
    (hfit : (advance s.words).length ≤ s.cfg.maxw) (hc : s.counter (iterationBin s).toNat = maxWord) :
    exec .step s = raise .counterOvf s := by
  simp [exec, execStep, hm, ha, Nat.not_lt.2 hfit, hc]

/-- STEP with the cursor at its maximum (R170). -/
theorem exec_step_cursorOvf {s : State} (hm : s.mode = .idle) (ha : atRest s.words = true)
    (hfit : (advance s.words).length ≤ s.cfg.maxw) (hc : s.counter (iterationBin s).toNat ≠ maxWord)
    (hcur : s.cur = maxWord) : exec .step s = raise .cursorOvf s := by
  simp [exec, execStep, hm, ha, Nat.not_lt.2 hfit, hc, hcur]

/-- STEP that passes every check (R170). -/
theorem exec_step_success {s : State} (hm : s.mode = .idle) (ha : atRest s.words = true)
    (hfit : (advance s.words).length ≤ s.cfg.maxw) (hc : s.counter (iterationBin s).toNat ≠ maxWord)
    (hcur : s.cur ≠ maxWord) : exec .step s = respond (iterationBin s) s.iterate := by
  simp [exec, execStep, hm, ha, Nat.not_lt.2 hfit, hc, hcur]

/-- Settles O33: the four faults of STEP in their order, its success, whose writes are `State.iterate`, and the bound
of its bin (`iterationBin_lt_bins`). -/
theorem stepDoesOneIteration : Obligations.StepDoesOneIteration := by
  unfold Obligations.StepDoesOneIteration
  refine ⟨fun v => decode_opcodeOf (i := .step) rfl, fun s => exec_step_loading, fun s => exec_step_capacity,
    fun s hm ha hfit hc => exec_step_counterOvf hm ha hfit ((maxWord_iff _).2 hc),
    fun s hm ha hfit hc hcur => exec_step_cursorOvf hm ha hfit ((ne_maxWord_iff _).2 hc) ((maxWord_iff _).2 hcur),
    fun s hm ha hfit hlt hcurlt => ?_, fun s => iterationBin_lt_bins⟩
  have hc : s.counter (iterationBin s).toNat ≠ maxWord := (ne_maxWord_iff _).2 hlt
  have hcur : s.cur ≠ maxWord := (ne_maxWord_iff _).2 hcurlt
  refine ⟨_, exec_step_success hm ha hfit hc hcur, rfl, ?_, fun j => counter_incCounter_other hc, rfl,
    add_one_toNat hcur, rfl⟩
  calc (s.iterate.counter (iterationBin s).toNat).toNat = (s.counter (iterationBin s).toNat + 1#64).toNat := by
        rw [counter_iterate, counter_incCounter_self hc]
    _ = (s.counter (iterationBin s).toNat).toNat + 1 := add_one_toNat hc

/-- Settles O35: a STEP that answers without error passed the checks of BIN, HINC and ADV, and its writes are theirs. -/
theorem stepIsBinThenHincThenAdv : Obligations.StepIsBinThenHincThenAdv := by
  unfold Obligations.StepIsBinThenHincThenAdv
  intro s t b hwf h hr
  obtain ⟨_, hw, -⟩ := exec_success h hr
  cases hw with
  | nothing _ hq => exact hq.elim nofun nofun
  | step hm ha hfit hc hcur =>
    rw [exec_step_success hm ha hfit hc hcur] at h
    cases respond_eq h
    cases hr
    have hcount : s.counter (iterationBin s).toNat + 1#64 = s.iterate.counter (iterationBin s).toNat := by
      rw [counter_iterate, counter_incCounter_self hc]
    exact ⟨_, _, _, exec_bin_idle hm s.cur, rfl, exec_hinc_success hm (iterationBin_lt_bins hwf) hc,
      congrArg (fun d => some (Response.mk d false)) hcount, exec_adv_fits hm ha hfit, rfl, rfl, rfl, rfl, rfl⟩

end Sys2Proof.Machine
end

section
/-! PROOFS. The host's remaining inputs: no command reads them, so a run of given commands goes on, with more commands
behind them, into a run of those. -/

namespace Sys2Proof.Machine

/-- The result with the host's remaining inputs replaced. -/
def resultWithPending (p : List HostInput) : Result → Result
  | .next t => .next (t.setPending p)
  | .fault r => .fault r
  | .refused r => .refused r

/-- No command reads the host's remaining inputs. -/
theorem exec_setPending (i : Instr) (s : State) (p : List HostInput) :
    exec i (s.setPending p) = resultWithPending p (exec i s) := by
  cases i with
  | nop | ldbeg c | rdcur | rdnw | rdstat => rfl
  | adv => simp only [exec, execAdv, apply_ite (resultWithPending p)]; rfl
  | bin n => simp only [exec, execBin, apply_ite (resultWithPending p)]; rfl
  | hinc k => simp only [exec, execHinc, apply_ite (resultWithPending p)]; rfl
  | step => simp only [exec, execStep, apply_ite (resultWithPending p)]; rfl
  | ldword v => simp only [exec, execLdword, apply_ite (resultWithPending p)]; rfl
  | ldend => simp only [exec, execLdend, apply_ite (resultWithPending p)]; rfl
  | rdhist k => simp only [exec, execRdhist, apply_ite (resultWithPending p)]; rfl
  | rdword j => simp only [exec, execRdword, State.setPending_words]; cases wordAt s.words j.toNat <;> rfl
  | rdcfg j => simp only [exec, execRdcfg, State.setPending_cfg]; cases configAt s.cfg j <;> rfl

/-- A step that answers takes a run one step on. -/
theorem runFor_succ {n : Nat} {s u : State} (h : step s = .next u) : runFor (n + 1) s = runFor n u := by
  simp only [runFor, h]

/-- A run of given commands with more behind them is the run of the first ones and then a run of the others. -/
theorem runFor_given_append {is js : List Instr} {n : Nat} {s t : State} (hc : s.cfg.wf = true)
    (h : runFor is.length (s.given is) = .next t) :
    runFor (is.length + n) (s.given (is ++ js)) = runFor n (t.given js) := by
  induction is generalizing s with
  | nil =>
    cases h
    rw [List.length_nil, Nat.zero_add]
    rfl
  | cons i is ih =>
    obtain ⟨u, hu, hcfg, hrun⟩ := runFor_given_cons hc h
    have hu' : exec i (s.given (is ++ js)) = .next (u.given (is ++ js)) :=
      calc exec i (s.given (is ++ js)) = resultWithPending (issue (is ++ js)) (exec i (s.given is)) :=
            exec_setPending i (s.given is) _
        _ = .next (u.given (is ++ js)) := by rw [hu]; rfl
    calc runFor (is.length + 1 + n) (s.given (i :: (is ++ js)))
        = runFor (is.length + n) (u.given (is ++ js)) := by
          rw [Nat.add_right_comm, runFor_given_succ hc hu']
      _ = runFor n (t.given js) := ih (hcfg ▸ hc) hrun

end Sys2Proof.Machine
end

section
/-! PROOFS. Runs of STEP from the seed (44_driver_step.md section 2): the words, the cursor and the counters after each
iteration, whether the run began at reset (R173) or at a loaded checkpoint (R175). -/

namespace Sys2Proof.Machine

/-- The words after `j` iterations from the seed. -/
def seedWords (j : Nat) : List Word := advance^[j] [3#64]

/-- The next iteration advances the words. -/
theorem seedWords_succ (j : Nat) : seedWords (j + 1) = advance (seedWords j) :=
  Function.iterate_succ_apply' advance j [3#64]

/-- The words of a seed run keep R21. -/
theorem seedWords_atRest (j : Nat) : atRest (seedWords j) = true := by
  induction j with
  | zero => rfl
  | succ j ih => rw [seedWords_succ]; exact advanceFrom_atRest _ _ _ ih

/-- The value after `j` iterations (R173). -/
theorem val_seedWords (j : Nat) : val (seedWords j) = 3 ^ (j + 1) := by
  induction j with
  | zero => rfl
  | succ j ih => rw [seedWords_succ, advanceTriplesTheValue _ (seedWords_atRest j), ih, ← Nat.pow_succ']

/-- The top word of a seed run is not 0 (R25). -/
theorem seedWords_topWordNonzero (j : Nat) : TopWordNonzero (seedWords j) := by
  induction j with
  | zero => exact ⟨3#64, rfl, by decide⟩
  | succ j ih => rw [seedWords_succ]; exact topWordNonzero_advance (seedWords_atRest j) ih

/-- A seed run never empties the store. -/
theorem seedWords_ne_nil (j : Nat) : seedWords j ≠ [] := by
  obtain ⟨w, hw, -⟩ := seedWords_topWordNonzero j
  intro h0
  rw [h0] at hw
  cases hw

/-- A run of fewer iterations fits where a longer one does. -/
theorem SeedRunFits.mono {cfg : Config} {j k : Nat} (hjk : j ≤ k) (h : SeedRunFits cfg k) : SeedRunFits cfg j :=
  ⟨(Nat.pow_le_pow_right (by decide) (by omega)).trans_lt h.1, hjk.trans_lt h.2⟩

/-- The words of a run that fits have a slot each: there are only as many as the value needs. -/
theorem seedWords_length_le {cfg : Config} {j : Nat} (h : SeedRunFits cfg j) : (seedWords j).length ≤ cfg.maxw := by
  have hlen := length_eq_size_val (seedWords_atRest j) (seedWords_topWordNonzero j)
  have hsize : Nat.size (val (seedWords j)) ≤ 63 * cfg.maxw := Nat.size_le.2 (val_seedWords j ▸ h.1)
  omega

/-- The next iteration adds 1 to the count of its bin. -/
theorem seedCount_succ (d j b : Nat) : seedCount d (j + 1) b = seedCount d j b + if b = seedBin d j then 1 else 0 := by
  by_cases hb : seedBin d j = b
  · simp [seedCount, List.range_succ, hb]
  · simp [seedCount, List.range_succ, hb, Ne.symm hb]

/-- No count exceeds the number of iterations. -/
theorem seedCount_le (d j b : Nat) : seedCount d j b ≤ j :=
  (List.length_filter_le _ _).trans_eq List.length_range

/-- `s` stands after `j` iterations of a seed run of the build `cfg`, with no fault recorded, and its counters have
counted those from iteration `i` on: `i` is 0 for a run from reset and `m` for one resumed after `m` iterations. -/
structure OnSeedRun (cfg : Config) (i j : Nat) (s : State) : Prop where
  build : s.cfg = cfg
  words : s.words = seedWords j
  cur : s.cur.toNat = j
  mode : s.mode = .idle
  faultBits : s.faultBits = 0#8
  firstCause : s.firstCause = 0#4
  counter : ∀ b, (s.counter b).toNat + seedCount cfg.digits i b = seedCount cfg.digits j b

/-- The reset state is the start of a seed run (R40). -/
theorem onSeedRun_resetWith (cfg : Config) : OnSeedRun cfg 0 0 (State.resetWith cfg) where
  build := rfl
  words := rfl
  cur := rfl
  mode := rfl
  faultBits := rfl
  firstCause := rfl
  counter _ := rfl

section
variable {cfg : Config} {i j : Nat} {s : State}

/-- The host's remaining inputs are no part of a seed run's state. -/
theorem OnSeedRun.setPending (hs : OnSeedRun cfg i j s) (p : List HostInput) : OnSeedRun cfg i j (s.setPending p) :=
  { hs with }

/-- STATUS of a seed run is 0. -/
theorem OnSeedRun.status_eq_zero (hs : OnSeedRun cfg i j s) : s.status = 0 := by
  rw [State.status, hs.mode, hs.faultBits, hs.firstCause]
  decide

/-- The bin of iteration `j` is b_j of R173. -/
theorem OnSeedRun.iterationBin_toNat (hs : OnSeedRun cfg i j s) (hc : cfg.wf = true) :
    (iterationBin s).toNat = seedBin cfg.digits j := by
  obtain ⟨hd, hd'⟩ := wf_digits hc
  calc (iterationBin s).toNat = window cfg.digits (val s.words) s.cur.toNat := by
        rw [iterationBin, hs.build, hs.words]
        exact binValueIsItsClosedForm _ _ _ hd hd' (seedWords_atRest j)
    _ = seedBin cfg.digits j := by rw [hs.words, val_seedWords, hs.cur, seedBin]

/-- The next STEP of a seed run that fits meets no counter at its maximum. -/
theorem OnSeedRun.counter_ne_maxWord (hs : OnSeedRun cfg i j s) (hfits : SeedRunFits cfg (j + 1)) (b : Nat) :
    s.counter b ≠ maxWord := by
  have hcount := hs.counter b
  have hle := seedCount_le cfg.digits j b
  have hj := hfits.2
  rw [ne_maxWord_iff]
  omega

/-- Nor does it meet the cursor at its maximum. -/
theorem OnSeedRun.cur_ne_maxWord (hs : OnSeedRun cfg i j s) (hfits : SeedRunFits cfg (j + 1)) : s.cur ≠ maxWord := by
  have hj := hfits.2
  rw [ne_maxWord_iff, hs.cur]
  omega

/-- The writes of that STEP are iteration `j`. -/
theorem OnSeedRun.iterate (hs : OnSeedRun cfg i j s) (hc : cfg.wf = true) (hfits : SeedRunFits cfg (j + 1)) :
    OnSeedRun cfg i (j + 1) s.iterate where
  build := hs.build
  words := by rw [State.iterate_words, hs.words, seedWords_succ]
  cur := by rw [State.iterate_cur, add_one_toNat (hs.cur_ne_maxWord hfits), hs.cur]
  mode := hs.mode
  faultBits := hs.faultBits
  firstCause := hs.firstCause
  counter b := by
    have hcount := hs.counter b
    rw [counter_iterate, counter_inc s _ b (hs.counter_ne_maxWord hfits _), hs.iterationBin_toNat hc, seedCount_succ]
    split
    · next hb =>
      rw [add_one_toNat (hs.counter_ne_maxWord hfits _), ← hb]
      omega
    · exact hcount

/-- A STEP of a seed run that fits succeeds, answers b_j and is iteration `j`. -/
theorem OnSeedRun.step (hs : OnSeedRun cfg i j s) (hc : cfg.wf = true) (hfits : SeedRunFits cfg (j + 1)) :
    ∃ t, exec .step s = .next t ∧ t.rsp = some ⟨BitVec.ofNat 64 (seedBin cfg.digits j), false⟩ ∧
      OnSeedRun cfg i (j + 1) t := by
  have ha : atRest s.words = true := hs.words ▸ seedWords_atRest j
  have hfit : (advance s.words).length ≤ s.cfg.maxw := by
    rw [hs.words, hs.build, ← seedWords_succ]
    exact seedWords_length_le hfits
  have hbin : iterationBin s = BitVec.ofNat 64 (seedBin cfg.digits j) := by
    rw [← hs.iterationBin_toNat hc, BitVec.ofNat_toNat, BitVec.setWidth_eq]
  refine ⟨_, exec_step_success hs.mode ha hfit (hs.counter_ne_maxWord hfits _) (hs.cur_ne_maxWord hfits), ?_,
    { hs.iterate hc hfits with }⟩
  rw [State.setRsp_rsp, hbin]

/-- `k` STEPs that fit take a seed run `k` iterations on. -/
theorem OnSeedRun.run {k : Nat} (hs : OnSeedRun cfg i j s) (hwf : cfg.wf = true) (hfits : SeedRunFits cfg (j + k)) :
    ∃ t, runFor k (s.given (Pseudo.run k)) = .next t ∧ OnSeedRun cfg i (j + k) t := by
  induction k generalizing s j with
  | zero => exact ⟨_, rfl, hs.setPending _⟩
  | succ k ih =>
    rw [← Nat.add_assoc, Nat.add_right_comm] at hfits ⊢
    obtain ⟨u, hexec, -, hu⟩ := (hs.setPending (issue (Pseudo.run k))).step hwf (hfits.mono (Nat.le_add_right _ _))
    obtain ⟨t, hrun, ht⟩ := ih hu hfits
    refine ⟨t, ?_, ht⟩
    calc runFor (k + 1) (s.given (Pseudo.run (k + 1)))
        = runFor k u := runFor_given_succ (hs.build ▸ hwf) hexec
      _ = runFor k (u.given (Pseudo.run k)) := by rw [given_of_pending (exec_cfg hexec).2]
      _ = .next t := hrun

end

/-- Settles O55: the run of `k` STEPs from the reset state, and one STEP more, whose bin is b_k. -/
theorem runFromSeedFollowsTheRunLaw : Obligations.RunFromSeedFollowsTheRunLaw := by
  unfold Obligations.RunFromSeedFollowsTheRunLaw
  intro cfg k hwf hfits
  rw [← Nat.zero_add k] at hfits
  obtain ⟨t, hrun, ht⟩ := (onSeedRun_resetWith cfg).run hwf hfits
  rw [Nat.zero_add] at ht
  refine ⟨t, hrun, ?_, ht.cur, ht.counter, ht.mode, ht.status_eq_zero, fun hnext => ?_⟩
  · rw [ht.words, val_seedWords]
  · obtain ⟨u, hexec, hrsp, -⟩ := ht.step hwf hnext
    exact ⟨u, hexec, hrsp⟩

/-- A checkpoint of iteration `m`, loaded into the reset state, resumes the run with every counter at 0 (R175). -/
theorem onSeedRun_loaded {cfg : Config} {m : Nat} {c : Word} (hcur : c.toNat = m) :
    OnSeedRun cfg m m ((((State.resetWith cfg).loadBegun c).given []).loadEnded (seedWords m)) where
  build := rfl
  words := seedIfEmpty_of_ne_nil (seedWords_ne_nil m)
  cur := hcur
  mode := rfl
  faultBits := rfl
  firstCause := rfl
  counter _ := Nat.zero_add _

/-- A reset and a `load` sequence, with commands behind them, leave the load's state with those commands. -/
theorem runFor_reset_load {s : State} {c : Word} {ws : List Word} {is : List Instr} (hc : s.cfg.wf = true)
    (hl : ws.length ≤ s.cfg.maxw) (ha : atRest ws = true) :
    runFor (1 + (ws.length + 2) + is.length) (s.setPending (.reset :: issue (Pseudo.load c ws ++ is))) =
      runFor is.length (((((State.resetWith s.cfg).loadBegun c).given []).loadEnded ws).given is) := by
  have hlen : (Pseudo.load c ws).length = ws.length + 2 := by simp [Pseudo.load]
  have hload := runFor_load (s := State.resetWith s.cfg) (c := c) hc hl ha
  rw [← hlen] at hload ⊢
  have hreset : step (s.setPending (.reset :: issue (Pseudo.load c ws ++ is))) =
      .next ((State.resetWith s.cfg).given (Pseudo.load c ws ++ is)) :=
    step_reset (s := s.setPending (.reset :: issue (Pseudo.load c ws ++ is))) hc rfl rfl
  calc runFor (1 + (Pseudo.load c ws).length + is.length) (s.setPending (.reset :: issue (Pseudo.load c ws ++ is)))
      = runFor ((Pseudo.load c ws).length + is.length)
          ((State.resetWith s.cfg).given (Pseudo.load c ws ++ is)) := by
        rw [Nat.add_assoc, Nat.add_comm 1, runFor_succ hreset]
    _ = runFor is.length _ := runFor_given_append hc hload

/-- Settles O59: the single run and the resumed one are at the same point of the same seed run; the counters of the
first part have counted the iterations below `m`, those of the second the rest. -/
theorem resumedRunEqualsTheSingleRun : Obligations.ResumedRunEqualsTheSingleRun := by
  unfold Obligations.ResumedRunEqualsTheSingleRun
  intro cfg m n hwf hmn hfits
  have hfitsm : SeedRunFits cfg m := hfits.mono hmn
  obtain ⟨one, hrun, hone⟩ := (onSeedRun_resetWith cfg).run (k := n) hwf (by rwa [Nat.zero_add])
  obtain ⟨first, hrunm, hfirst⟩ := (onSeedRun_resetWith cfg).run (k := m) hwf (by rwa [Nat.zero_add])
  rw [Nat.zero_add] at hone hfirst
  obtain ⟨second, hresumed, hsecond⟩ :=
    (onSeedRun_loaded hfirst.cur).run (k := n - m) hwf (by rwa [Nat.add_sub_cancel' hmn])
  rw [Nat.add_sub_cancel' hmn] at hsecond
  have hwords : second.words = one.words := hsecond.words.trans hone.words.symm
  refine ⟨one, first, second, hrun, hrunm, ?_, hwords, ?_, BitVec.eq_of_toNat_eq ?_, fun k => ?_⟩
  · have hlen : (Pseudo.run (n - m)).length = n - m := List.length_replicate
    have hload := runFor_reset_load (s := first) (c := first.cur) (ws := seedWords m) (is := Pseudo.run (n - m))
      (hfirst.build ▸ hwf) (hfirst.build ▸ seedWords_length_le hfitsm) (seedWords_atRest m)
    rw [hlen, hfirst.build] at hload
    rw [hfirst.words]
    exact hload.trans hresumed
  · rw [State.nw, State.nw, hwords]
  · rw [hsecond.cur, hone.cur]
  · have h1 := hone.counter k
    have h2 := hfirst.counter k
    have h3 := hsecond.counter k
    have h0 : seedCount cfg.digits 0 k = 0 := rfl
    omega

end Sys2Proof.Machine
end

section
/-! PROOFS. Control (45_control.md): NOP, RDSTAT with the fields of STATUS, RDCFG with the build it reads. -/

namespace Sys2Proof.Machine

/-- NOP in either mode (R180). -/
theorem exec_nop (s : State) : exec .nop s = respond 0#64 s := rfl

/-- Settles O36: `respond` writes the response and nothing else, and 0x0100 is an illegal word by its reserved byte. -/
theorem nopChangesNothing : Obligations.NopChangesNothing := by
  unfold Obligations.NopChangesNothing
  refine ⟨fun v => decode_opcodeOf (i := .nop) rfl, exec_nop, fun s v rest hc hp => ?_⟩
  have hrsv : rsvField 0x0100#16 ≠ 0#8 := by decide
  exact illegalWordRaisesIllegalCmd s _ rest hc hp (.inl hrsv)

/-- RDSTAT in either mode (R181). -/
theorem exec_rdstat (s : State) : exec .rdstat s = respond s.status s := rfl

/-- A field of STATUS inside the reserved bits reads 0 (R32, R34). -/
theorem status_reservedField (s : State) {lo n : Nat} (h : (12 ≤ lo ∧ lo + n ≤ 16) ∨ (17 ≤ lo ∧ lo + n ≤ 64)) :
    s.status.extractLsb' lo n = 0 := by
  apply BitVec.eq_of_getLsbD_eq
  intro k hk
  have hbit : s.status.getLsbD (lo + k) = false := status_reserved s (by omega)
  simp [hbit]

/-- Settles O37: RDSTAT responds with STATUS, whose fields the lemmas about the layout of R32 read. -/
theorem rdstatReadsStatus : Obligations.RdstatReadsStatus := by
  unfold Obligations.RdstatReadsStatus
  refine ⟨fun v => decode_opcodeOf (i := .rdstat) rfl, exec_rdstat,
    fun s => ⟨status_faults s, status_first s, ?_, ?_, ?_⟩⟩
  · exact status_reservedField s (.inl ⟨by decide, by decide⟩)
  · rw [status_loadingBit, loadingBit_iff]
  · exact status_reservedField s (.inr ⟨by decide, by decide⟩)

/-- There is no configuration value at index 3 or above (R35). -/
theorem configAt_of_three_le {j : Word} (hj : 3 ≤ j.toNat) (cfg : Config) : configAt cfg j = none := by
  unfold configAt
  split
  case h_4 => rfl
  all_goals omega

/-- RDCFG of an index that holds a value, in either mode (R182). -/
theorem exec_rdcfg {s : State} {j v : Word} (h : configAt s.cfg j = some v) : exec (.rdcfg j) s = respond v s := by
  simp [exec, execRdcfg, h]

/-- RDCFG of any other index (R182). -/
theorem exec_rdcfg_indexRange {s : State} {j : Word} (h : configAt s.cfg j = none) :
    exec (.rdcfg j) s = raise .indexRange s := by
  simp [exec, execRdcfg, h]

/-- Settles O38: the three values of `configAt` and no other; a legal build fits 64 bits, and `step_cfg`. -/
theorem rdcfgReadsTheBuild : Obligations.RdcfgReadsTheBuild := by
  unfold Obligations.RdcfgReadsTheBuild
  refine ⟨fun j => decode_opcodeOf (i := .rdcfg j) rfl, fun s => ⟨exec_rdcfg rfl, exec_rdcfg rfl, exec_rdcfg rfl⟩,
    fun s j hj => exec_rdcfg_indexRange (configAt_of_three_le hj s.cfg), fun cfg hc => ?_, fun s t => step_cfg⟩
  obtain ⟨-, hdigits⟩ := wf_digits hc
  obtain ⟨-, hmaxw⟩ := wf_maxw hc
  exact ⟨ofNat_toNat (by omega), ofNat_toNat (by omega)⟩

end Sys2Proof.Machine
end

section
/-! PROOFS. Faults (60_exceptions.md): what recording one leaves in STATUS and `err`, and which command raises which
fault in which mode. -/

namespace Sys2Proof.Machine

/-- The fault bits of STATUS after a fault (R203), as the second clause of O9 reads them. -/
theorem recordFault_status_faultBit (c : FaultCode) (s : State) {k : Nat} (hk : k < 8) :
    (recordFault c s).status.getLsbD k = (s.status.getLsbD k || decide (k = c.code - 1)) := by
  obtain ⟨-, hraise, -⟩ := faultBitsClearOnlyOnReset
  exact (hraise c s _ rfl).1 k hk

/-- STATUS above FIRST_CAUSE is the LOADING bit alone (R32). -/
theorem status_aboveFirstCause (s : State) {k : Nat} (hk : 12 ≤ k) :
    s.status.getLsbD k = (decide (k = 16) && loadingBit s.mode) := by
  rw [status_bit, if_neg (by omega), if_neg (by omega)]

/-- Settles O7: the three fields of STATUS after `recordFault`; the frame is its definition. -/
theorem faultRecordingWritesStatusAndResponse : Obligations.FaultRecordingWritesStatusAndResponse := by
  unfold Obligations.FaultRecordingWritesStatusAndResponse
  intro c s
  refine ⟨recordFault c s, rfl, ?_, fun k _ hne hk => ?_, ?_, recordFault_rsp c s, rfl⟩
  · have hc := code_bounds c
    rw [recordFault_status_faultBit c s (by omega), decide_eq_true rfl, Bool.or_true]
  · obtain hlow | hhigh := hk
    · rw [recordFault_status_faultBit c s hlow, decide_eq_false hne, Bool.or_false]
    · rw [status_aboveFirstCause _ hhigh, status_aboveFirstCause s hhigh, recordFault_mode]
  · rw [status_first, status_first, recordFault_firstCause]
    rfl

/-- `err` is 1 exactly when the fault bits are not all 0 (R208). -/
theorem err_iff (s : State) : s.err = true ↔ s.faultBits ≠ 0#8 := decide_eq_true_iff

/-- `err` is 0 when no fault bit is set (R208). -/
theorem err_eq_false {s : State} (h : s.faultBits = 0#8) : s.err = false :=
  decide_eq_false (not_not_intro h)

/-- Settles O11: `err` through the fault bits, which a fault sets, which no other step but a reset clears
(`step_flags`), and which a reset clears. -/
theorem errOutputIsOrOfFaultBits : Obligations.ErrOutputIsOrOfFaultBits := by
  unfold Obligations.ErrOutputIsOrOfFaultBits
  refine ⟨fun s => ?_, fun cfg => err_eq_false (State.resetWith_faultBits cfg), fun c s t h => ?_,
    fun s t h hn hs => ?_, fun s x rest hc hp hx => ⟨_, step_reset hc hp hx, err_eq_false (takeReset_faultBits _)⟩⟩
  · rw [err_iff, ← status_faults, faults_ne_zero]
    refine exists_congr fun k => and_congr_right fun hk => ?_
    rw [status_faults, status_faultBit s hk]
  · cases raise_eq h
    exact (err_iff _).2 (setFaultBit_ne c s.faultBits)
  · rw [err_iff] at hs ⊢
    obtain ⟨hb, -⟩ | ⟨c, hb, -⟩ := step_flags h hn
    · rwa [hb]
    · rw [hb]
      exact setFaultBit_ne c s.faultBits

/-- The 'raised by' column of R201: the commands that can raise a fault, for SEQ_ERR those that the matrix of R214
makes illegal in the mode. -/
def RaisedBy (m : Mode) (i : Instr) : FaultCode → Prop
  | .illegalCmd => False
  | .seqErr => legalIn m i = false
  | .binRange => ∃ k, i = .hinc k
  | .indexRange => (∃ j, i = .rdword j) ∨ (∃ k, i = .rdhist k) ∨ ∃ j, i = .rdcfg j
  | .wordRange => ∃ v, i = .ldword v
  | .capacity => i = .adv ∨ i = .step ∨ ∃ v, i = .ldword v
  | .counterOvf => (∃ k, i = .hinc k) ∨ i = .step
  | .cursorOvf => i = .step

/-- The state after a fault tells which fault it was. -/
theorem raise_inj {c c' : FaultCode} {s : State} (h : raise c s = raise c' s) : c = c' :=
  not_imp_not.1 (raise_ne s) h

/-- A command that the matrix makes illegal in the mode raises SEQ_ERR (R214). -/
theorem exec_of_illegal {i : Instr} {s : State} (h : legalIn s.mode i = false) : exec i s = raise .seqErr s := by
  cases i with
  | adv => exact exec_adv_loading (mode_ne_idle.1 (of_decide_eq_false h))
  | bin n => exact exec_bin_loading (mode_ne_idle.1 (of_decide_eq_false h)) n
  | hinc k => exact exec_hinc_loading (mode_ne_idle.1 (of_decide_eq_false h)) k
  | step => exact exec_step_loading (mode_ne_idle.1 (of_decide_eq_false h))
  | ldword v => exact exec_ldword_idle (mode_ne_loading.1 (of_decide_eq_false h)) v
  | ldend => exact exec_ldend_idle (mode_ne_loading.1 (of_decide_eq_false h))
  | nop | ldbeg _ | rdcur | rdnw | rdword _ | rdhist _ | rdstat | rdcfg _ => cases h

/-- If this is the answer of `i` in `s` and a fault, then `i` is listed for the fault in the mode of `s`. -/
def OnlyListed (s : State) (i : Instr) (r : Result) : Prop := ∀ c, r = raise c s → RaisedBy s.mode i c

section
variable {s : State} {i : Instr}

/-- A success is no fault. -/
theorem OnlyListed.respond {v : Word} {u : State} : OnlyListed s i (respond v u) :=
  fun _ h => absurd h (respond_ne s u)

/-- A refusal is no fault. -/
theorem OnlyListed.refused {why : Refusal} : OnlyListed s i (.refused why) := nofun

/-- A fault the command is listed for. -/
theorem OnlyListed.raise {c : FaultCode} (hc : RaisedBy s.mode i c) : OnlyListed s i (raise c s) :=
  fun _ h => raise_inj h ▸ hc

/-- A check: one answer when it holds, another when it does not. -/
theorem OnlyListed.check {p : Prop} [Decidable p] {r r' : Result} (hr : p → OnlyListed s i r)
    (hr' : ¬ p → OnlyListed s i r') : OnlyListed s i (if p then r else r') := iteInduction hr hr'

end

/-- A command raises only the faults it is listed for: the checks of each command, in their order. -/
theorem exec_onlyListed (i : Instr) (s : State) : OnlyListed s i (exec i s) := by
  cases i with
  | nop | ldbeg _ | rdcur | rdnw | rdstat => exact .respond
  | adv =>
    exact .check (fun hm => .raise (decide_eq_false hm)) fun _ => .check (fun _ => .refused) fun _ =>
      .check (fun _ => .raise (.inl rfl)) fun _ => .respond
  | bin n => exact .check (fun hm => .raise (decide_eq_false hm)) fun _ => .respond
  | hinc k =>
    exact .check (fun hm => .raise (decide_eq_false hm)) fun _ => .check (fun _ => .raise ⟨k, rfl⟩) fun _ =>
      .check (fun _ => .raise (.inl ⟨k, rfl⟩)) fun _ => .respond
  | step =>
    exact .check (fun hm => .raise (decide_eq_false hm)) fun _ => .check (fun _ => .refused) fun _ =>
      .check (fun _ => .raise (.inr (.inl rfl))) fun _ => .check (fun _ => .raise (.inr rfl)) fun _ =>
        .check (fun _ => .raise rfl) fun _ => .respond
  | ldword v =>
    exact .check (fun hm => .raise (decide_eq_false hm)) fun _ => .check (fun _ => .raise ⟨v, rfl⟩) fun _ =>
      .check (fun _ => .raise (.inr (.inr ⟨v, rfl⟩))) fun _ => .respond
  | ldend => exact .check (fun hm => .raise (decide_eq_false hm)) fun _ => .respond
  | rdword j =>
    simp only [exec, execRdword]
    split
    · exact .raise (.inl ⟨j, rfl⟩)
    · exact .respond
  | rdhist k => exact .check (fun _ => .raise (.inr (.inl ⟨k, rfl⟩))) fun _ => .respond
  | rdcfg j =>
    simp only [exec, execRdcfg]
    split
    · exact .raise (.inr (.inr ⟨j, rfl⟩))
    · exact .respond

/-- Settles O12: an illegal command raises SEQ_ERR, and only an illegal one is listed for it. -/
theorem modeMatrixDecidesSeqErr : Obligations.ModeMatrixDecidesSeqErr := by
  unfold Obligations.ModeMatrixDecidesSeqErr
  refine fun i s => ⟨exec_of_illegal, fun hlegal h => ?_⟩
  have hillegal : legalIn s.mode i = false := exec_onlyListed i s .seqErr h
  rw [hlegal] at hillegal
  cases hillegal

end Sys2Proof.Machine
end

section
/-! PROOFS. Reset and hazards (70_reset_and_hazards.md): every command of a legal state is answered in one step (R238),
and the `seed` sequence is a fresh start but for the histogram (R233). -/

namespace Sys2Proof.Machine

/-- A store that keeps R21 meets no refusal, so every command answers, with a result or with a fault. -/
theorem exec_answers (i : Instr) {s : State} (ha : atRest s.words = true) :
    ∃ t r, exec i s = .next t ∧ t.rsp = some r := by
  have he := exec_effect i s
  generalize exec i s = res at he
  cases he
  case refused hmarker => exact absurd (ha.symm.trans hmarker) nofun
  all_goals exact ⟨_, _, rfl, rfl⟩

/-- So does every command the host offers: an illegal word answers its fault (R75). -/
theorem runCommand_answers (c : Command) {s : State} (ha : atRest s.words = true) :
    ∃ t r, runCommand c s = .next t ∧ t.pending = s.pending ∧ t.rsp = some r := by
  unfold runCommand
  split
  · next i _ =>
    obtain ⟨t, r, ht, hr⟩ := exec_answers i ha
    exact ⟨t, r, ht, (exec_cfg ht).2, hr⟩
  · exact ⟨_, _, rfl, rfl, rfl⟩

/-- With nothing from the host a step holds the state (R220, R232). -/
theorem step_of_no_input {s : State} (hc : s.cfg.wf = true) (hp : s.pending = []) : step s = .next s := by
  simp [step, hc, hp]

/-- A command in front of the host's inputs is taken and answered in one step (R236). -/
theorem step_answers_command {s : State} {c : Command} {rest : List HostInput} (hc : s.cfg.wf = true)
    (ha : atRest s.words = true) (hp : s.pending = .command c :: rest) :
    ∃ t r, step s = .next t ∧ t.pending = rest ∧ t.rsp = some r := by
  rw [step_command hc hp]
  exact runCommand_answers c (s := s.setPending rest) ha

/-- Settles O14: of a legal state only the build and the store below the marker matter; no input holds the state, a
reset is always taken, and a command is answered by `step_answers_command`. -/
theorem everyCommandGetsItsResponse : Obligations.EveryCommandGetsItsResponse := by
  unfold Obligations.EveryCommandGetsItsResponse
  intro s hs
  refine ⟨?_, fun c rest => step_answers_command hs.build hs.rest⟩
  match hp : s.pending with
  | [] => exact ⟨s, step_of_no_input hs.build hp⟩
  | .command c :: rest =>
    obtain ⟨t, -, ht, -⟩ := step_answers_command hs.build hs.rest hp
    exact ⟨t, ht⟩
  | .reset :: rest | .resetDuring _ :: rest => exact ⟨_, step_reset hs.build hp rfl⟩

/-- Settles O49: `seed` is the `load` sequence of cursor 0 and no word, so by `runFor_load` it ends in IDLE with the
seed word alone, and it has written neither the histogram nor a fault bit. -/
theorem seedSequenceIsAFreshStart : Obligations.SeedSequenceIsAFreshStart := by
  unfold Obligations.SeedSequenceIsAFreshStart
  intro s hc
  have hseed : runFor 2 (s.given Pseudo.seed) = .next (((s.loadBegun 0).given []).loadEnded []) :=
    runFor_load (c := 0) (ws := []) hc (Nat.zero_le _) rfl
  exact ⟨_, hseed, rfl, rfl, rfl, rfl, rfl, rfl⟩

end Sys2Proof.Machine
end

section
/-! PROOFS. Legal states: every step keeps each part of `Legal`, and the reset state has them all. -/

namespace Sys2Proof.Machine

/-- Every step keeps the histogram canonical (R29): HINC checks its index, and the bin of a STEP is one of the
build's. -/
theorem step_histWf {s t : State} (hs : histWf s.cfg.bins s.hist = true) (h : step s = .next t) :
    histWf t.cfg.bins t.hist = true := by
  refine step_keeps (P := fun s => histWf s.cfg.bins s.hist = true) (fun _ _ hs => hs) (fun _ _ => rfl)
    (fun _ _ hs => hs) (fun i s t hwf hs he => ?_) hs h
  obtain ⟨c, rfl⟩ | ⟨u, d, hw, rfl⟩ := exec_next he
  · exact hs
  · cases hw with
    | hinc k _ hk => exact histWf_incCounter hk hs
    | step => exact histWf_incCounter (iterationBin_lt_bins hwf) hs
    | nothing | adv | ldbeg | ldword | ldend => exact hs

/-- A success is a legal response (R203). -/
theorem responseLegal_setRsp (s : State) (d : Word) : ResponseLegal (s.setRsp ⟨d, false⟩) := by
  rintro r ⟨⟩ ⟨⟩

/-- Every step leaves a legal response: a success, a recorded fault, none after reset, or the one there was (R203). -/
theorem step_responseLegal {s t : State} (hs : ResponseLegal s) (h : step s = .next t) : ResponseLegal t := by
  refine step_keeps (P := ResponseLegal) (fun _ _ hs => hs) (fun _ _ => nofun) (fun _ _ _ => recordFault_resp)
    (fun i s t _ _ he => ?_) hs h
  obtain ⟨c, rfl⟩ | ⟨u, d, -, rfl⟩ := exec_next he
  · exact recordFault_resp
  · exact responseLegal_setRsp u d

/-- Settles O51: each part of `Legal` is kept by every step. -/
theorem stepKeepsEveryStateLegal : Obligations.StepKeepsEveryStateLegal := by
  unfold Obligations.StepKeepsEveryStateLegal
  intro s t hs h
  exact
    { build := step_cfg h ▸ hs.build
      rest := step_atRest hs.rest h
      count := step_countInRange hs.count h
      hist := step_histWf hs.hist h
      status := step_statusLegal hs.status h
      response := step_responseLegal hs.response h }

/-- The reset state of a legal build is legal: its one word, 3, has a slot, since MAXW is at least 1 (R6, R40). -/
theorem legal_resetWith {cfg : Config} (hc : cfg.wf = true) : Legal (State.resetWith cfg) where
  build := hc
  rest := rfl
  count := ⟨(wf_maxw hc).1, fun _ => le_rfl⟩
  hist := rfl
  status := by simp [StatusLegal]
  response := nofun

/-- Settles O50: `legal_resetWith`, since the default build is legal. -/
theorem resetStateIsLegal : Obligations.ResetStateIsLegal :=
  ⟨legal_resetWith (by decide), fun _ => legal_resetWith⟩

end Sys2Proof.Machine
end

section
/-! PROOFS. The opcode map (30_encoding.md section 1): decoding and encoding are inverse, and what an operand that is
not read leaves undecided. -/

namespace Sys2Proof.Machine

/-- Settles O1: the fourteen rows of the table, each by `decode_opcodeOf`. -/
theorem opcodeMapWordsDecode : Obligations.OpcodeMapWordsDecode := by
  unfold Obligations.OpcodeMapWordsDecode
  intro v
  exact ⟨decode_opcodeOf (i := .nop) rfl, decode_opcodeOf (i := .adv) rfl, decode_opcodeOf (i := .bin v) rfl,
    decode_opcodeOf (i := .hinc v) rfl, decode_opcodeOf (i := .step) rfl, decode_opcodeOf (i := .ldbeg v) rfl,
    decode_opcodeOf (i := .ldword v) rfl, decode_opcodeOf (i := .ldend) rfl, decode_opcodeOf (i := .rdcur) rfl,
    decode_opcodeOf (i := .rdnw) rfl, decode_opcodeOf (i := .rdword v) rfl, decode_opcodeOf (i := .rdhist v) rfl,
    decode_opcodeOf (i := .rdstat) rfl, decode_opcodeOf (i := .rdcfg v) rfl⟩

/-- Settles O2: `decode_opcodeOf` with the operand that `encode` gives. -/
theorem decodeOfEncodeIsIdentity : Obligations.DecodeOfEncodeIsIdentity := by
  unfold Obligations.DecodeOfEncodeIsIdentity
  intro i
  have hopa : (operandOf i).getD ((operandOf i).getD 0#64) = (operandOf i).getD 0#64 := by
    cases operandOf i <;> rfl
  exact decode_opcodeOf hopa

/-- The OP column of R72. -/
def assignedOps : List Nat :=
  [0x00, 0x01, 0x02, 0x03, 0x04, 0x10, 0x11, 0x12, 0x20, 0x21, 0x22, 0x23, 0x30, 0x31]

/-- The opcode of every command is in the table. -/
theorem opcodeOf_mem_assignedOps (i : Instr) : (opcodeOf i).toNat ∈ assignedOps := by
  cases i <;> simp [opcodeOf, assignedOps]

/-- OP selects a command exactly when it is in the table of R72. -/
theorem exists_decodeOp_iff (op : BitVec 8) (opa : Word) :
    (∃ i, decodeOp op opa = some i) ↔ op.toNat ∈ assignedOps := by
  constructor
  · rintro ⟨i, hi⟩
    exact opcodeOf_of_decodeOp hi ▸ opcodeOf_mem_assignedOps i
  · intro hop
    unfold decodeOp
    simp only [assignedOps, List.mem_cons, List.not_mem_nil, or_false] at hop
    rcases hop with h | h | h | h | h | h | h | h | h | h | h | h | h | h <;> simp [h]

/-- The decoder answers a command exactly when RSV is 0 and OP selects it. -/
theorem decode_eq_command_iff (c : Command) (i : Instr) :
    decode c = .command i ↔ rsvField c.cmd = 0#8 ∧ decodeOp (opField c.cmd) c.opa = some i := by
  by_cases hr : rsvField c.cmd = 0#8
  · cases ho : decodeOp (opField c.cmd) c.opa <;> simp [decode, hr, ho]
  · simp [decode, hr]

/-- The operand of a decoded command, where it has one, is OPA (R73). -/
theorem operandOf_of_decodeOp {op : BitVec 8} {opa v : Word} {i : Instr} (h : decodeOp op opa = some i)
    (hv : operandOf i = some v) : v = opa := by
  unfold decodeOp at h
  split at h <;> cases h <;> cases hv <;> rfl

/-- A command word whose RSV is 0 is its OP (R71). -/
theorem setWidth_opField {cmd : CmdWord} (h : rsvField cmd = 0#8) : (opField cmd).setWidth 16 = cmd := by
  have hhigh : cmd.toNat / 2 ^ 8 % 2 ^ 8 = 0 := by
    simpa [rsvField, BitVec.extractLsb'_toNat, Nat.shiftRight_eq_div_pow] using congrArg BitVec.toNat h
  have hlt := cmd.isLt
  refine BitVec.eq_of_toNat_eq ?_
  simp only [opField, BitVec.toNat_setWidth, BitVec.extractLsb'_toNat, Nat.shiftRight_zero]
  omega

/-- Settles O3: by `decode_eq_command_iff` the decoder answers by RSV and OP, and OP by the table. -/
theorem wordIsLegalIffInOpcodeMap : Obligations.WordIsLegalIffInOpcodeMap := by
  unfold Obligations.WordIsLegalIffInOpcodeMap
  refine ⟨fun c => ?_, fun c i h => ?_⟩
  · simp only [decode_eq_command_iff, exists_and_left]
    exact and_congr_right fun _ => exists_decodeOp_iff _ _
  · obtain ⟨hrsv, hop⟩ := (decode_eq_command_iff c i).1 h
    refine ⟨?_, fun v => operandOf_of_decodeOp hop⟩
    calc (encode i).cmd = (opcodeOf i).setWidth 16 := rfl
      _ = (opField c.cmd).setWidth 16 := by rw [opcodeOf_of_decodeOp hop]
      _ = c.cmd := setWidth_opField hrsv

/-- A step of a build outside R6 is refused (D37, U8). -/
theorem step_badBuild {s : State} (h : s.cfg.wf = false) : step s = .refused .badBuild := by
  simp [step, h]

/-- A transaction acts through the command it decodes to. -/
theorem step_congr_decode {s : State} {c c' : Command} {rest : List HostInput} (h : decode c = decode c') :
    step (s.setPending (.command c :: rest)) = step (s.setPending (.command c' :: rest)) := by
  cases hc : s.cfg.wf with
  | false =>
    have hrefused (x : Command) : step (s.setPending (.command x :: rest)) = .refused .badBuild := step_badBuild hc
    rw [hrefused, hrefused]
  | true =>
    have hrun (x : Command) : step (s.setPending (.command x :: rest)) = runCommand x (s.setPending rest) :=
      step_command hc rfl
    simp only [hrun, runCommand, h]

/-- The command words of the seven commands that read no operand (R73). -/
theorem exists_instr_of_operandless {cmd : CmdWord}
    (h : cmd ∈ [0x0000#16, 0x0001#16, 0x0004#16, 0x0012#16, 0x0020#16, 0x0021#16, 0x0030#16]) :
    ∃ i, operandOf i = none ∧ cmd = (opcodeOf i).setWidth 16 := by
  simp only [List.mem_cons, List.not_mem_nil, or_false] at h
  obtain rfl | rfl | rfl | rfl | rfl | rfl | rfl := h
  exacts [⟨.nop, rfl, rfl⟩, ⟨.adv, rfl, rfl⟩, ⟨.step, rfl, rfl⟩, ⟨.ldend, rfl, rfl⟩, ⟨.rdcur, rfl, rfl⟩,
    ⟨.rdnw, rfl, rfl⟩, ⟨.rdstat, rfl, rfl⟩]

/-- Settles O5: each of the seven words decodes to its command with any operand (`decode_opcodeOf`). -/
theorem unreadOperandHasNoEffect : Obligations.UnreadOperandHasNoEffect := by
  unfold Obligations.UnreadOperandHasNoEffect
  intro s cmd v w rest h
  obtain ⟨i, hi, rfl⟩ := exists_instr_of_operandless h
  have hdecode (x : Word) : decode ⟨(opcodeOf i).setWidth 16, x⟩ = .command i :=
    decode_opcodeOf (by rw [hi]; rfl)
  exact step_congr_decode ((hdecode v).trans (hdecode w).symm)

/-- A transaction that decodes to a command runs it. -/
theorem runCommand_command {c : Command} {i : Instr} (h : decode c = .command i) (s : State) :
    runCommand c s = exec i s := by
  simp only [runCommand, h]

/-- With nothing from the host any number of steps holds the state (R220, R232). -/
theorem runFor_of_no_input (n : Nat) {s : State} (hc : s.cfg.wf = true) (hp : s.pending = []) :
    runFor n s = .next s := by
  induction n with
  | zero => rfl
  | succ n ih => rw [runFor_succ (step_of_no_input hc hp), ih]

/-- Settles O6: the step takes the transaction in front and runs what it decodes to; with none it holds the state. -/
theorem stepRunsTheDecodedCommand : Obligations.StepRunsTheDecodedCommand := by
  unfold Obligations.StepRunsTheDecodedCommand
  refine ⟨fun s c rest i hc hp hi => ?_, fun n s => runFor_of_no_input n⟩
  rw [step_command hc hp, runCommand_command hi]
  rfl

end Sys2Proof.Machine
end

section
/-! PROOFS. Which faults a command answers (60_exceptions.md section 1), and where the model stops. -/

namespace Sys2Proof.Machine

/-- A command that answers with the error bit has raised the fault of its code, and it is listed for it (R12, R201). -/
theorem exec_error {i : Instr} {s t : State} {d : Word} (h : exec i s = .next t) (hr : t.rsp = some ⟨d, true⟩) :
    ∃ c : FaultCode, d = BitVec.ofNat 64 c.code ∧ RaisedBy s.mode i c := by
  obtain ⟨c, rfl⟩ | ⟨u, d', -, rfl⟩ := exec_next h
  · cases hr
    exact ⟨c, rfl, exec_onlyListed i s c h⟩
  · cases hr

/-- The commands that some mode makes illegal (R214). -/
theorem legalIn_eq_false {m : Mode} {i : Instr} (h : legalIn m i = false) :
    i = .adv ∨ (∃ n, i = .bin n) ∨ (∃ k, i = .hinc k) ∨ i = .step ∨ (∃ v, i = .ldword v) ∨ i = .ldend := by
  cases i with
  | nop | ldbeg | rdcur | rdnw | rdword | rdhist | rdstat | rdcfg => cases h
  | adv | bin | hinc | step | ldword | ldend => simp

/-- Settles O13: the code of an error answer is one the command is listed for, code by code. -/
theorem eachFaultComesOnlyFromItsCommands : Obligations.EachFaultComesOnlyFromItsCommands := by
  unfold Obligations.EachFaultComesOnlyFromItsCommands
  intro i s t d h hr
  obtain ⟨c, rfl, hc⟩ := exec_error h hr
  cases c with
  | illegalCmd => exact hc.elim
  | seqErr => exact .inl ⟨rfl, legalIn_eq_false hc⟩
  | binRange => exact .inr (.inl ⟨rfl, hc⟩)
  | indexRange => exact .inr (.inr (.inl ⟨rfl, hc⟩))
  | wordRange => exact .inr (.inr (.inr (.inl ⟨rfl, hc⟩)))
  | capacity => exact .inr (.inr (.inr (.inr (.inl ⟨rfl, hc⟩))))
  | counterOvf => exact .inr (.inr (.inr (.inr (.inr (.inl ⟨rfl, hc⟩)))))
  | cursorOvf => exact .inr (.inr (.inr (.inr (.inr (.inr ⟨rfl, hc⟩)))))

/-- ADV in IDLE of a store with a marker bit set (U12). -/
theorem exec_adv_markerSet {s : State} (hm : s.mode = .idle) (ha : atRest s.words = false) :
    exec .adv s = .refused .markerSet := by
  simp [exec, execAdv, hm, ha]

/-- STEP in IDLE of a store with a marker bit set (U12). -/
theorem exec_step_markerSet {s : State} (hm : s.mode = .idle) (ha : atRest s.words = false) :
    exec .step s = .refused .markerSet := by
  simp [exec, execStep, hm, ha]

/-- Every command answers or is refused as `markerSet`. -/
theorem exec_next_or_refused (i : Instr) (s : State) : (∃ t, exec i s = .next t) ∨
    (exec i s = .refused .markerSet ∧ (i = .adv ∨ i = .step) ∧ s.mode = .idle ∧ atRest s.words = false) := by
  have he := exec_effect i s
  generalize exec i s = r at he
  cases he
  case refused hi hm ha => exact .inr ⟨rfl, hi, hm, ha⟩
  all_goals exact .inl ⟨_, rfl⟩

/-- Settles O15: the two refusals, and that no command meets any other (`exec_next_or_refused`). -/
theorem stopsAreExactlyTheRefusedCases : Obligations.StopsAreExactlyTheRefusedCases :=
  ⟨fun _ => step_badBuild, fun _ hm ha => ⟨exec_adv_markerSet hm ha, exec_step_markerSet hm ha⟩,
    exec_next_or_refused⟩

end Sys2Proof.Machine
end

section
/-! PROOFS. ADV and STEP seen through the value of the store (40_bigfraction_advance.md, 44_driver_step.md). -/

namespace Sys2Proof.Machine

/-- The advance fits in the words its product fits in: it appends one only when the words there are do not hold the
product (R104). -/
theorem advance_length_le {ws : List Word} {n : Nat} (ha : atRest ws = true) (hlen : ws.length ≤ n)
    (hfit : 3 * val ws < 2 ^ (63 * n)) : (advance ws).length ≤ n := by
  obtain ⟨hkeep, hgrow⟩ := advanceGrowsExactlyWhenNeeded ws ha
  by_cases hlt : 3 * val ws < 2 ^ (63 * ws.length)
  · exact (hkeep hlt).trans_le hlen
  · have hge : 2 ^ (63 * ws.length) ≤ 3 * val ws := Nat.not_lt.1 hlt
    have hpow : 63 * ws.length < 63 * n := (Nat.pow_lt_pow_iff_right Nat.one_lt_two).1 (hge.trans_lt hfit)
    rw [(hgrow hge).1]
    omega

/-- A legal state has room for the advance whenever three times its value fits in MAXW words. -/
theorem Legal.advance_fits {s : State} (hs : Legal s) (hfit : 3 * val s.words < 2 ^ (63 * s.cfg.maxw)) :
    (advance s.words).length ≤ s.cfg.maxw :=
  advance_length_le hs.rest hs.count.1 hfit

/-- Settles O20: such an ADV has room (`Legal.advance_fits`), and the advance triples the value and keeps R21. -/
theorem advSucceedsWheneverTheProductFits : Obligations.AdvSucceedsWheneverTheProductFits := by
  unfold Obligations.AdvSucceedsWheneverTheProductFits
  intro s hs hm hfit
  exact ⟨_, exec_adv_fits hm hs.rest (hs.advance_fits hfit), advanceTriplesTheValue s.words hs.rest,
    advanceFrom_atRest _ _ _ hs.rest, rfl, rfl⟩

/-- In a legal state the bin of an iteration is the window of the value at the cursor (R124, R171). -/
theorem Legal.iterationBin_toNat {s : State} (hs : Legal s) :
    (iterationBin s).toNat = window s.cfg.digits (val s.words) s.cur.toNat := by
  obtain ⟨hd, hd'⟩ := wf_digits hs.build
  exact binValueIsItsClosedForm _ _ _ hd hd' hs.rest

/-- The counters after `Increment`, as numbers. -/
theorem counter_incCounter_toNat {s : State} {k : Nat} (h : s.counter k ≠ maxWord) (j : Nat) :
    ((s.incCounter k).counter j).toNat = (s.counter j).toNat + if j = k then 1 else 0 := by
  split
  · next hj => rw [hj, counter_incCounter_self h, add_one_toNat h]
  · next hj => rw [counter_incCounter_other h hj, Nat.add_zero]

/-- Settles O34: such a STEP passes every check, and its writes are `State.iterate`, with the bin in closed form. -/
theorem stepInClosedForm : Obligations.StepInClosedForm := by
  unfold Obligations.StepInClosedForm
  intro s hs hm hfit hcount hcur
  rw [← hs.iterationBin_toNat] at hcount ⊢
  have hcount : s.counter (iterationBin s).toNat ≠ maxWord := (ne_maxWord_iff _).2 hcount
  have hcur : s.cur ≠ maxWord := (ne_maxWord_iff _).2 hcur
  refine ⟨_, exec_step_success hm hs.rest (hs.advance_fits hfit) hcount hcur,
    advanceTriplesTheValue s.words hs.rest, add_one_toNat hcur, ?_, counter_incCounter_toNat hcount⟩
  rw [State.setRsp_rsp, BitVec.ofNat_toNat, BitVec.setWidth_eq]

/-- Settles O56: the value 3^(k+1) of such a store is at least 2^(k+1), so the store has more than k bits. -/
theorem seedRunNeverReadsAboveTheStore : Obligations.SeedRunNeverReadsAboveTheStore := by
  unfold Obligations.SeedRunNeverReadsAboveTheStore
  intro cfg k t hwf hfits hrun
  obtain ⟨t', hrun', ht⟩ := (onSeedRun_resetWith cfg).run (k := k) hwf (by rwa [Nat.zero_add])
  rw [hrun] at hrun'
  cases hrun'
  rw [Nat.zero_add] at ht
  have hbits : k + 1 < 63 * (seedWords k).length := by
    refine (Nat.pow_lt_pow_iff_right Nat.one_lt_two).1 ?_
    calc 2 ^ (k + 1) ≤ 3 ^ (k + 1) := Nat.pow_le_pow_left (by decide) _
      _ = val (seedWords k) := (val_seedWords k).symm
      _ < 2 ^ (63 * (seedWords k).length) := val_lt _ (seedWords_atRest k)
  rw [ht.cur, ht.words]
  omega

end Sys2Proof.Machine
end

section
/-! PROOFS. What commands write and read (10_state.md section 9, 20_memory.md, 43_checkpoint_transfer.md section 3):
the frame of all fourteen, runs of reads, and what the words and the cursor depend on. -/

namespace Sys2Proof.Machine

/-- A command writes the cursor only if it is STEP or LDBEG (R39). -/
theorem exec_cur_of_unlisted {i : Instr} {s t : State} (hstep : i ≠ .step) (hldbeg : ∀ c, i ≠ .ldbeg c)
    (h : exec i s = .next t) : t.cur = s.cur := by
  obtain hcur | hi | ⟨hi, -⟩ := exec_cur h
  · exact hcur
  · exact absurd hi (hldbeg _)
  · exact absurd hi hstep

/-- A command writes a counter only if it is HINC or STEP (R39). -/
theorem exec_hist_of_unlisted {i : Instr} {s t : State} (hhinc : ∀ k, i ≠ .hinc k) (hstep : i ≠ .step)
    (h : exec i s = .next t) : t.hist = s.hist := by
  obtain hhist | ⟨⟨k, hi⟩ | hi, -⟩ := exec_hist h
  · exact hhist
  · exact absurd hi (hhinc k)
  · exact absurd hi hstep

/-- A command writes the mode only if it is LDBEG or LDEND (R39). -/
theorem exec_mode_of_unlisted {i : Instr} {s t : State} (hldbeg : ∀ c, i ≠ .ldbeg c) (hldend : i ≠ .ldend)
    (h : exec i s = .next t) : t.mode = s.mode := by
  obtain hmode | ⟨⟨c, hi⟩, -⟩ | ⟨hi, -⟩ := exec_mode h
  · exact hmode
  · exact absurd hi (hldbeg c)
  · exact absurd hi hldend

/-- A command that answers without error writes no fault bit and no FIRST_CAUSE (R39). -/
theorem exec_flags_of_success {i : Instr} {s t : State} {d : Word} (h : exec i s = .next t)
    (hr : t.rsp = some ⟨d, false⟩) : t.faultBits = s.faultBits ∧ t.firstCause = s.firstCause := by
  obtain ⟨hb, hf, -⟩ | ⟨c, rfl⟩ := exec_flags h
  · exact ⟨hb, hf⟩
  · cases hr

/-- Settles O39: one lemma per column of R39. -/
theorem commandsWriteOnlyTheirColumns : Obligations.CommandsWriteOnlyTheirColumns := by
  unfold Obligations.CommandsWriteOnlyTheirColumns
  intro i s t h
  exact ⟨fun hadv hstep hldbeg hldword hldend => exec_words_of_unlisted hadv hstep hldbeg hldword hldend h,
    fun hstep hldbeg => exec_cur_of_unlisted hstep hldbeg h, fun hhinc hstep => exec_hist_of_unlisted hhinc hstep h,
    fun hldbeg hldend => exec_mode_of_unlisted hldbeg hldend h, fun d hr => exec_flags_of_success h hr, exec_cfg h⟩

/-- Two states of one build that agree on W, CUR and MODE. -/
structure AgreeOnStore (s s' : State) : Prop where
  cfg : s'.cfg = s.cfg
  words : s'.words = s.words
  cur : s'.cur = s.cur
  mode : s'.mode = s.mode

/-- Agreement is symmetric. -/
theorem AgreeOnStore.symm {s s' : State} (h : AgreeOnStore s s') : AgreeOnStore s' s :=
  ⟨h.cfg.symm, h.words.symm, h.cur.symm, h.mode.symm⟩

/-- Agreement is transitive. -/
theorem AgreeOnStore.trans {s s' s'' : State} (h : AgreeOnStore s s') (h' : AgreeOnStore s' s'') :
    AgreeOnStore s s'' :=
  ⟨h'.cfg.trans h.cfg, h'.words.trans h.words, h'.cur.trans h.cur, h'.mode.trans h.mode⟩

/-- NOP, BIN and the reads have no writes (R58). -/
theorem Writes.eq_of_read {i : Instr} {s u : State} (hi : readsOnly i = true ∨ i = .nop) (hw : Writes s i u) :
    u = s := by
  cases hw with
  | nothing => rfl
  | adv | hinc | step | ldbeg | ldword | ldend => exact hi.elim nofun nofun

/-- What a NOP, a BIN or a read leaves: a fault recorded, or its response (R58). -/
theorem exec_read {i : Instr} {s t : State} (hi : readsOnly i = true ∨ i = .nop) (h : exec i s = .next t) :
    (∃ c, t = recordFault c s) ∨ ∃ d, t = s.setRsp ⟨d, false⟩ := by
  obtain hc | ⟨u, d, hw, rfl⟩ := exec_next h
  · exact .inl hc
  · exact .inr ⟨d, by rw [hw.eq_of_read hi]⟩

/-- What a command writes to W, CUR and MODE from one state it leaves there from every state that agrees on them and
has no counter at its maximum: the other checks of R206 read only W, CUR and MODE. -/
theorem Writes.agreeOnStore {i : Instr} {s u s' t' : State} (hw : Writes s i u) (r : Response)
    (hs : AgreeOnStore s s') (hmax : ∀ k, s'.counter k ≠ maxWord) (h : exec i s' = .next t') :
    AgreeOnStore (u.setRsp r) t' := by
  obtain ⟨hcfg, hwords, hcur, hmode⟩ := hs
  cases hw with
  | nothing _ hi => obtain ⟨c, rfl⟩ | ⟨d, rfl⟩ := exec_read hi h <;> exact ⟨hcfg, hwords, hcur, hmode⟩
  | hinc k =>
    obtain ⟨c, rfl⟩ | ⟨u', d, hw', rfl⟩ := exec_next h
    · exact ⟨hcfg, hwords, hcur, hmode⟩
    · cases hw' with
      | nothing | hinc => exact ⟨hcfg, hwords, hcur, hmode⟩
  | adv hm ha hfit =>
    rw [exec_adv_fits (hmode.trans hm) (by rwa [hwords]) (by rwa [hwords, hcfg])] at h
    cases respond_eq h
    exact ⟨hcfg, congrArg advance hwords, hcur, hmode⟩
  | step hm ha hfit _ hne =>
    rw [exec_step_success (hmode.trans hm) (by rwa [hwords]) (by rwa [hwords, hcfg]) (hmax _) (by rwa [hcur])] at h
    cases respond_eq h
    exact ⟨hcfg, congrArg advance hwords, congrArg (· + 1#64) hcur, hmode⟩
  | ldbeg c =>
    cases respond_eq h
    exact ⟨hcfg, rfl, rfl, rfl⟩
  | ldword v hm hv hl =>
    rw [exec_ldword_room (hmode.trans hm) hv (by rwa [hwords, hcfg])] at h
    cases respond_eq h
    exact ⟨hcfg, congrArg (· ++ [v]) hwords, hcur, hmode⟩
  | ldend hm =>
    rw [exec_ldend_loading (hmode.trans hm)] at h
    cases respond_eq h
    exact ⟨hcfg, congrArg seedIfEmpty hwords, hcur, rfl⟩

/-- A command takes states that agree to states that agree, when no counter is at its maximum: if it writes from
either state it leaves the same from the other, and a fault writes nothing. -/
theorem exec_agreeOnStore {i : Instr} {s t s' t' : State} (hs : AgreeOnStore s s') (hmax : ∀ k, s.counter k ≠ maxWord)
    (hmax' : ∀ k, s'.counter k ≠ maxWord) (h : exec i s = .next t) (h' : exec i s' = .next t') :
    AgreeOnStore t t' := by
  obtain ⟨c, rfl⟩ | ⟨u, d, hw, rfl⟩ := exec_next h
  · obtain ⟨c', rfl⟩ | ⟨u', d', hw', rfl⟩ := exec_next h'
    · exact ⟨hs.cfg, hs.words, hs.cur, hs.mode⟩
    · exact (hw'.agreeOnStore _ hs.symm hmax h).symm
  · exact hw.agreeOnStore _ hs hmax' h'

/-- Settles O58: `exec_agreeOnStore`. -/
theorem wordsAndCursorIgnoreHistory : Obligations.WordsAndCursorIgnoreHistory := by
  unfold Obligations.WordsAndCursorIgnoreHistory
  intro i s t s' t' hcfg hwords hcur hmode hmax hmax' h h'
  obtain ⟨-, hwords', hcur', hmode'⟩ := exec_agreeOnStore ⟨hcfg, hwords, hcur, hmode⟩ hmax hmax' h h'
  exact ⟨hwords', hcur', hmode'⟩

/-- Two states that differ at most in the fault bits, FIRST_CAUSE, the response and the host's remaining inputs. -/
structure AgreeButFaults (s s' : State) : Prop extends AgreeOnStore s s' where
  hist : s'.hist = s.hist

/-- Agreement is transitive. -/
theorem AgreeButFaults.trans {s s' s'' : State} (h : AgreeButFaults s s') (h' : AgreeButFaults s' s'') :
    AgreeButFaults s s'' :=
  ⟨h.toAgreeOnStore.trans h'.toAgreeOnStore, h'.hist.trans h.hist⟩

/-- Such a state written out. -/
theorem AgreeButFaults.eq {s s' : State} (h : AgreeButFaults s s') :
    s' = { s with faultBits := s'.faultBits, firstCause := s'.firstCause, rsp := s'.rsp, pending := s'.pending } := by
  obtain ⟨⟨hcfg, hwords, hcur, hmode⟩, hhist⟩ := h
  rw [← hcfg, ← hwords, ← hcur, ← hmode, ← hhist]

/-- A NOP, a BIN or a read always answers, and writes only its response and its faults (R58). -/
theorem exec_read_answers {i : Instr} (hi : readsOnly i = true ∨ i = .nop) (s : State) :
    ∃ t, exec i s = .next t ∧ AgreeButFaults s t := by
  obtain ⟨t, ht⟩ | ⟨-, rfl | rfl, -⟩ := exec_next_or_refused i s
  · refine ⟨t, ht, ?_⟩
    obtain ⟨c, rfl⟩ | ⟨d, rfl⟩ := exec_read hi ht <;> exact ⟨⟨rfl, rfl, rfl, rfl⟩, rfl⟩
  · exact hi.elim nofun nofun
  · exact hi.elim nofun nofun

/-- So does any run of them (R66). -/
theorem runFor_reads {is : List Instr} {s : State} (hc : s.cfg.wf = true)
    (his : ∀ i ∈ is, readsOnly i = true ∨ i = .nop) :
    ∃ t, runFor is.length (s.given is) = .next t ∧ AgreeButFaults s t ∧ t.pending = [] := by
  induction is generalizing s with
  | nil => exact ⟨_, rfl, ⟨⟨rfl, rfl, rfl, rfl⟩, rfl⟩, rfl⟩
  | cons i is ih =>
    obtain ⟨hi, his⟩ := List.forall_mem_cons.1 his
    obtain ⟨u, hu, hsu⟩ := exec_read_answers hi (s.given is)
    have hsu : AgreeButFaults s u := ⟨⟨hsu.cfg, hsu.words, hsu.cur, hsu.mode⟩, hsu.hist⟩
    obtain ⟨t, hrun, hut, hp⟩ := ih (s := u) (hsu.cfg ▸ hc) his
    refine ⟨t, ?_, hsu.trans hut, hp⟩
    rw [List.length_cons, runFor_given_succ hc hu, ← hrun, given_of_pending (exec_cfg hu).2]

/-- A response tells its data. -/
theorem respond_inj {v w : Word} {s : State} (h : respond v s = respond w s) : w = v := by
  have hrsp := congrArg State.rsp (respond_eq h)
  cases hrsp
  rfl

/-- A read or BIN that succeeds gives its response and does nothing else (R58). -/
theorem exec_read_success {i : Instr} {s t : State} {d : Word} (hi : readsOnly i = true) (h : exec i s = .next t)
    (hr : t.rsp = some ⟨d, false⟩) : t = s.setRsp ⟨d, false⟩ := by
  obtain ⟨u, hw, rfl⟩ := exec_success h hr
  rw [hw.eq_of_read (.inl hi)]

/-- A read or BIN that succeeds answers the same wherever W, CUR, MODE and the counters are the same, RDSTAT where
STATUS is too. -/
theorem exec_read_congr {i : Instr} {s s' : State} {d : Word} (hi : readsOnly i = true) (hs : AgreeButFaults s s')
    (hstat : i = .rdstat → s'.status = s.status) (h : exec i s = respond d s) : exec i s' = respond d s' := by
  obtain ⟨⟨hcfg, hwords, hcur, hmode⟩, hhist⟩ := hs
  have he := exec_effect i s
  rw [h] at he
  generalize hr : respond d s = r at he
  cases he with
  | raised => exact absurd hr (respond_ne _ _)
  | refused => cases hr
  | nop | adv | hinc | step | ldbeg | ldword | ldend => cases hi
  | bin _ n hm =>
    cases respond_inj hr
    rw [exec_bin_idle (hmode.trans hm), hcfg, hwords]
  | rdcur =>
    cases respond_inj hr
    rw [exec_rdcur, hcur]
  | rdnw =>
    cases respond_inj hr
    rw [exec_rdnw, State.nw, hwords]
    rfl
  | rdword =>
    cases respond_inj hr
    exact exec_rdword (by rwa [hwords])
  | rdhist =>
    cases respond_inj hr
    rw [exec_rdhist (by rwa [hcfg]), State.counter, hhist]
    rfl
  | rdstat =>
    cases respond_inj hr
    rw [exec_rdstat, hstat rfl]
  | rdcfg =>
    cases respond_inj hr
    exact exec_rdcfg (by rwa [hcfg])

/-- Settles O46: a run of reads keeps all but the faults (`runFor_reads`), and what a read answers depends on nothing
else but, for RDSTAT, STATUS (`exec_read_congr`). -/
theorem readsAnswerFromOneUnchangedState : Obligations.ReadsAnswerFromOneUnchangedState := by
  unfold Obligations.ReadsAnswerFromOneUnchangedState
  refine ⟨fun is s hc his => ?_, fun i s t d hi h hr => ?_, fun i s t d hi hne h hr is u hc his hrun => ?_⟩
  · obtain ⟨t, hrun, hst, hp⟩ := runFor_reads hc his
    refine ⟨t, hrun, ?_⟩
    rw [← hp]
    exact hst.eq
  · cases exec_read_success hi h hr
    exact ⟨rfl, exec_read_congr hi ⟨⟨rfl, rfl, rfl, rfl⟩, rfl⟩ (fun _ => rfl) h⟩
  · cases exec_read_success hi h hr
    obtain ⟨t, hrun', hst, -⟩ := runFor_reads (s := s.setRsp ⟨d, false⟩) hc his
    rw [hrun] at hrun'
    cases hrun'
    exact exec_read_congr hi ⟨⟨hst.cfg, hst.words, hst.cur, hst.mode⟩, hst.hist⟩ (fun h0 => absurd h0 hne) h

end Sys2Proof.Machine
end

section
/-! PROOFS. The values of reset (70_reset_and_hazards.md section 1, 10_state.md section 10). -/

namespace Sys2Proof.Machine

/-- Every piece of state has its value of R40. -/
def HasResetValues (t : State) : Prop :=
  t.words = [3#64] ∧ t.nw = 1 ∧ t.cur = 0 ∧ (∀ k, t.counter k = 0) ∧ t.mode = .idle ∧ t.status = 0

/-- The reset state has them, in every build. -/
theorem hasResetValues_resetWith (cfg : Config) : HasResetValues (State.resetWith cfg) :=
  ⟨rfl, rfl, rfl, fun _ => rfl, rfl, (onSeedRun_resetWith cfg).status_eq_zero⟩

/-- So has the state after a reset. -/
theorem hasResetValues_takeReset (s : State) : HasResetValues (takeReset s) := hasResetValues_resetWith s.cfg

/-- Settles O47: the values of the reset state, which is where a step that takes `rst` leads. -/
theorem resetGivesEveryResetValue : Obligations.ResetGivesEveryResetValue := by
  unfold Obligations.ResetGivesEveryResetValue
  refine ⟨fun t ht => ?_, fun s rest hc hp => ?_⟩
  · obtain rfl | ⟨cfg, rfl⟩ := ht
    · exact hasResetValues_resetWith Config.default
    · exact hasResetValues_resetWith cfg
  · obtain ⟨hwords, hnw, hcur, hcount, hmode, hstatus⟩ := hasResetValues_takeReset (s.setPending rest)
    exact ⟨_, step_reset hc hp rfl, hwords, hnw, hcur, hcount, hmode, hstatus, rfl, rfl⟩

/-- Settles O48: `step_reset` for both kinds of reset, which lead to one state. -/
theorem resetAbandonsTheCommandInProgress : Obligations.ResetAbandonsTheCommandInProgress := by
  unfold Obligations.ResetAbandonsTheCommandInProgress
  intro s c rest hc hp
  obtain ⟨hwords, -, hcur, hcount, hmode, hstatus⟩ := hasResetValues_takeReset (s.setPending rest)
  have hreset : step (s.setPending (.reset :: rest)) = .next (takeReset (s.setPending rest)) :=
    step_reset (s := s.setPending (.reset :: rest)) hc rfl rfl
  exact ⟨_, step_reset hc hp rfl, rfl, hwords, hcur, hcount, hmode, hstatus, rfl, hreset⟩

end Sys2Proof.Machine
end

section
/-! PROOFS. The assembler (30_encoding.md section 5): the written line of a command. -/

namespace Sys2Proof.Machine

/-- The table of mnemonics says which commands read an operand (R73, R78). -/
theorem mnemonicTable_lookup (i : Instr) :
    mnemonicTable.lookup (mnemonicOf i) = some (operandOf i).isSome := by
  cases i <;> rfl

/-- A 64-bit operand is written where the command reads one, and nothing elsewhere (R78). -/
theorem operandFits_written (v : Option Word) : AsmLine.operandFits v.isSome (v.map BitVec.toNat) = true := by
  cases v with
  | none => rfl
  | some v => exact decide_eq_true v.isLt

/-- The written line of a command is well formed. -/
theorem lineOf_wf (i : Instr) : (lineOf i).wf = true := by
  simp only [AsmLine.wf, lineOf, mnemonicTable_lookup, operandFits_written]

/-- A mnemonic names its command, with the operand where it reads one. -/
theorem instrNamed_mnemonicOf {i : Instr} {v : Word} (h : (operandOf i).getD v = v) :
    instrNamed (mnemonicOf i) v = some i := by
  cases i with
  | bin x | hinc x | ldbeg x | ldword x | rdword x | rdhist x | rdcfg x =>
    obtain rfl : x = v := h
    rfl
  | nop | adv | step | ldend | rdcur | rdnw | rdstat => rfl

/-- The literal of a written operand reads back as the operand. -/
theorem getD_ofNat_literal (v : Option Word) :
    v.getD (BitVec.ofNat 64 ((v.map BitVec.toNat).getD 0)) = BitVec.ofNat 64 ((v.map BitVec.toNat).getD 0) := by
  cases v <;> simp

/-- Settles O60: the line is well formed, and its mnemonic and literal give the command back. -/
theorem writtenLineAssemblesToItsCommand : Obligations.WrittenLineAssemblesToItsCommand := by
  unfold Obligations.WrittenLineAssemblesToItsCommand
  intro i
  refine ⟨lineOf_wf i, ?_⟩
  rw [instrOfLine, if_pos (lineOf_wf i)]
  exact instrNamed_mnemonicOf (getD_ofNat_literal (operandOf i))

end Sys2Proof.Machine
end
